-- ==== Sys2Proof/Word.lean ====
section
/-! DEFINITION. The two word types of the machine (spec/00_scope.md rule R3): 8-bit data, 16-bit addresses. -/

namespace Sys2Proof

/-- One byte: data, the accumulator, the condition-code register, an instruction byte (R3). -/
abbrev Byte := BitVec 8

/-- One 16-bit word: an address, the program counter, the stack pointer, the index register (R3). -/
abbrev Word := BitVec 16

end Sys2Proof
end

