-- ==== Sys2Proof/Config.lean ====
section
/-! DEFINITION. The implementation parameters of spec/00_scope.md section 4 (rules R3 to R7): what is fixed for one machine
and is not state (R9). The decoder, the memory primitives, the flag operations and the host interface take a Config; the
fixed-name definitions of the machine (exec, step, decodeTableWord) are at Config.specDefault. -/

namespace Sys2Proof

/-- The six named condition-code flags (R5, R17). -/
inductive Flag where
  | carry
  | zero
  | negative
  | interrupt
  | half
  | overflow
deriving DecidableEq, Repr

/-- The policy parameter ADDR_FFFF of R7: how the address space treats address 0xFFFF (R38, 92_eei_decisions.md D8). -/
inductive TopAddress where
  | ordinary
  | readsZeroIgnoresWrites
deriving DecidableEq, Repr

/-- The policy parameter PORTA_MASKED_READ of R7: what a read of the port-A data register yields while the gate is closed (R34,
92_eei_decisions.md D6, 93_implementation_defined.md U3). -/
inductive MaskedRead where
  /-- A fixed byte. -/
  | byte (b : Byte)
  /-- `any` of R7: a free draw per read, under no law, not even equal on two reads (U3). -/
  | any
deriving DecidableEq, Repr

/-- One of the four named port-A input bits (R6, R51). The spec leaves their names open, so they are numbered here. -/
inductive InputBit where
  | first
  | second
  | third
  | fourth
deriving DecidableEq, Repr

/-- The parameters of R4 (instruction selection), R5 (flag masks), R6 (port A) and R7 (policies).
HALF_RULE has one value in R7 and STA_IMM has one value that a model may implement (93_implementation_defined.md U4), so
neither is a field. Log entries 1 to 8 and 13. -/
structure Config where
  /-- `LN_ADD` of R4. -/
  lnAdd : BitVec 4
  /-- `LN_AND` of R4. -/
  lnAnd : BitVec 4
  /-- `LN_LDA` of R4. -/
  lnLda : BitVec 4
  /-- `LN_STA` of R4. -/
  lnSta : BitVec 4
  /-- `OPC_BRA` of R4. -/
  opcBra : Byte
  /-- `OPC_BEQ` of R4. -/
  opcBeq : Byte
  /-- `MASK_C` of R5. -/
  maskC : Byte
  /-- `MASK_Z` of R5. -/
  maskZ : Byte
  /-- `MASK_N` of R5. -/
  maskN : Byte
  /-- `MASK_I` of R5. -/
  maskI : Byte
  /-- `MASK_H` of R5. -/
  maskH : Byte
  /-- `MASK_V` of R5. -/
  maskV : Byte
  /-- `PORTA_DATA_ADDR` of R6. -/
  portAData : Word
  /-- `PORTA_DDR_ADDR` of R6. -/
  portADdr : Word
  /-- `PORTA_MASKED_READ` of R7. -/
  maskedRead : MaskedRead
  /-- `ADDR_FFFF` of R7. -/
  addrFFFF : TopAddress
  /-- `PORTA_INPUT_BITS` of R6. Four distinct positions out of eight are the first four values of a permutation of the
  eight, and every such map is one of these, so distinctness needs no side condition. -/
  inputBits : Equiv.Perm (Fin 8)

/-- The mask of a flag (R5, R18: "a fixed mapping from a closed tag set to mask constants"). -/
def Config.mask (c : Config) : Flag → Byte
  | .carry => c.maskC
  | .zero => c.maskZ
  | .negative => c.maskN
  | .interrupt => c.maskI
  | .half => c.maskH
  | .overflow => c.maskV

/-- The bit position of a named input bit (R6, R51). -/
def Config.inputPosition (c : Config) : InputBit → Fin 8
  | .first => c.inputBits 0
  | .second => c.inputBits 1
  | .third => c.inputBits 2
  | .fourth => c.inputBits 3

/-- The constraints that R4, R5 and R6 put on the parameters. -/
structure Config.Legal (c : Config) : Prop where
  add_ne_and : c.lnAdd ≠ c.lnAnd
  add_ne_lda : c.lnAdd ≠ c.lnLda
  add_ne_sta : c.lnAdd ≠ c.lnSta
  and_ne_lda : c.lnAnd ≠ c.lnLda
  and_ne_sta : c.lnAnd ≠ c.lnSta
  lda_ne_sta : c.lnLda ≠ c.lnSta
  bra_ne_beq : c.opcBra ≠ c.opcBeq
  bra_branch_class : c.opcBra ≤ 0x9F#8
  beq_branch_class : c.opcBeq ≤ 0x9F#8
  mask_one_bit : ∀ f, ∃ i < 8, c.mask f = BitVec.twoPow 8 i
  mask_distinct : ∀ f g, c.mask f = c.mask g → f = g
  data_in_hardware : c.portAData ≤ 0x007F#16
  ddr_in_hardware : c.portADdr ≤ 0x007F#16
  data_ne_ddr : c.portAData ≠ c.portADdr

/-- FREE VALUE (log entry 6). The four input-bit positions, which the spec leaves OPEN with no default (R6,
92_eei_decisions.md D7): nothing constrains them but that they are distinct. -/
opaque Config.openInputBits : Equiv.Perm (Fin 8)

/-- FREE VALUE (log entry 5). The bytes drawn by masked port-A reads under the policy `any`, one for each draw: nothing
constrains them (U3). -/
opaque Config.freeByte : Nat → Byte

/-- The parameter defaults of R4 to R7. Every number of the first four lines and of the port line is marked "from general
knowledge, not in source" by the spec (G2 to G5): log entries 1, 2 and 4; `maskedRead` and `addrFFFF` are its decisions D6
and D8: log entries 5 and 7. -/
def Config.specDefault : Config where
  lnAdd := 0xB#4
  lnAnd := 0x4#4
  lnLda := 0x6#4
  lnSta := 0x7#4
  opcBra := 0x20#8
  opcBeq := 0x27#8
  maskC := 0x01#8
  maskZ := 0x02#8
  maskN := 0x04#8
  maskI := 0x08#8
  maskH := 0x10#8
  maskV := 0x80#8
  portAData := 0x0000#16
  portADdr := 0x0003#16
  maskedRead := .byte 0x00#8
  addrFFFF := .ordinary
  inputBits := Config.openInputBits

end Sys2Proof
end

