-- ==== Sys2Proof/Syntax.lean ====
section
/-! DEFINITION. The instructions: one constructor per row of spec/opcode_table.json, in the table's order (rules R60 to R77
of spec/30_encoding.md). Nine rows are instructions; five are encodings that fail (R72 to R75). -/

namespace Sys2Proof

/-- One instruction as decoded. An operand byte is kept whole: all its eight bits are significant (R76). -/
inductive Instr where
  /-- ADD #imm8 (R80). -/
  | addImm (imm8 : Byte)
  /-- ADD dir8 (R80). -/
  | addDir (dir8 : Byte)
  /-- AND #imm8 (R81). -/
  | andImm (imm8 : Byte)
  /-- AND dir8 (R81). -/
  | andDir (dir8 : Byte)
  /-- LDA #imm8 (R90). -/
  | ldaImm (imm8 : Byte)
  /-- LDA dir8 (R90). -/
  | ldaDir (dir8 : Byte)
  /-- STA dir8 (R91). -/
  | staDir (dir8 : Byte)
  /-- BRA rel8 (R100). -/
  | braRel (rel8 : Byte)
  /-- BEQ rel8 (R101). -/
  | beqRel (rel8 : Byte)
  /-- STA with the immediate mode nibble: a failing encoding (R73). -/
  | staImm (imm8 : Byte)
  /-- Valid mode nibble, unknown instruction nibble: a failing encoding (R74). -/
  | unknownNibble (opcode operand : Byte)
  /-- Invalid mode nibble: a failing encoding of one byte, the operand byte is not read (R72). -/
  | badMode (opcode : Byte)
  /-- Unknown branch-class opcode in 0x00..0x7F: a failing encoding (R75). -/
  | unknownBranchLow (opcode operand : Byte)
  /-- Unknown branch-class opcode in 0x80..0x9F: a failing encoding (R75). -/
  | unknownBranchHigh (opcode operand : Byte)
deriving DecidableEq, Repr

end Sys2Proof
end

