-- ==== Sys2Proof/WellFormed.lean ====
section
/-! DEFINITION. Which terms of Instr are instructions of the machine: the failing encodings carry their opcode byte, which
must lie in the class its constructor names (rules R72, R74, R75). -/

namespace Sys2Proof

/-- R70: the low nibble selects one of the four format M instructions. -/
def Config.selectsInstruction (c : Config) (nibble : BitVec 4) : Bool :=
  nibble == c.lnAdd || nibble == c.lnAnd || nibble == c.lnLda || nibble == c.lnSta

/-- R71: the byte selects one of the two branches. -/
def Config.selectsBranch (c : Config) (opcode : Byte) : Bool :=
  opcode == c.opcBra || opcode == c.opcBeq

/-- Well-formedness of an instruction for a choice of parameters. -/
def Instr.wf (c : Config) : Instr → Bool
  | .addImm _ | .addDir _ | .andImm _ | .andDir _ | .ldaImm _ | .ldaDir _ | .staDir _ => true
  | .braRel _ | .beqRel _ => true
  | .staImm _ => true
  | .unknownNibble opcode _ =>
    decide (0xA0#8 ≤ opcode) && decide (opcode < 0xC0#8) && !c.selectsInstruction (opcode.extractLsb' 0 4)
  | .badMode opcode => decide (0xC0#8 ≤ opcode)
  | .unknownBranchLow opcode _ => decide (opcode < 0x80#8) && !c.selectsBranch opcode
  | .unknownBranchHigh opcode _ =>
    decide (0x80#8 ≤ opcode) && decide (opcode < 0xA0#8) && !c.selectsBranch opcode

end Sys2Proof
end

