-- ==== Sys2Proof/Decode.lean ====
section
/-! DEFINITION. The decoder and, after it, the encoder, both from the formats of spec/30_encoding.md (R62 to R77); the opcode
table of R77 as data; and the host's view of one table word. -/

namespace Sys2Proof

/-- Why a byte sequence does not decode: every opcode byte has a row, so only a sequence that ends too early is refused. -/
inductive DecodeError where
  /-- No opcode byte. -/
  | noOpcode
  /-- The opcode byte needs an operand byte (R62) and there is none. -/
  | noOperand (opcode : Byte)
deriving DecidableEq, Repr

/-- The high nibble of an opcode byte: the addressing mode of format M (R63, R66). -/
def modeNibble (opcode : Byte) : BitVec 4 := opcode.extractLsb' 4 4

/-- The low nibble of an opcode byte: the instruction selector of format M (R63, R70). -/
def insNibble (opcode : Byte) : BitVec 4 := opcode.extractLsb' 0 4

/-- The addressing-mode nibble of immediate mode (R66). -/
def immediateMode : BitVec 4 := 0xA#4

/-- The addressing-mode nibble of direct mode (R66). -/
def directMode : BitVec 4 := 0xB#4

/-- R65: the opcode byte is mode-bearing (format M). -/
def isModeBearing (opcode : Byte) : Bool := decide (0xA0#8 ≤ opcode)

/-- The failing encoding that is one byte long (R62, R72): an opcode byte whose mode nibble is 0xC to 0xF. -/
def decodeOneByte (opcode : Byte) : Option Instr :=
  if isModeBearing opcode && modeNibble opcode != immediateMode && modeNibble opcode != directMode then
    some (.badMode opcode)
  else none

/-- R70, R73, R74 in immediate mode. -/
def decodeImmediate (c : Config) (opcode operand : Byte) : Instr :=
  if insNibble opcode = c.lnAdd then .addImm operand
  else if insNibble opcode = c.lnAnd then .andImm operand
  else if insNibble opcode = c.lnLda then .ldaImm operand
  else if insNibble opcode = c.lnSta then .staImm operand
  else .unknownNibble opcode operand

/-- R70, R74 in direct mode. -/
def decodeDirect (c : Config) (opcode operand : Byte) : Instr :=
  if insNibble opcode = c.lnAdd then .addDir operand
  else if insNibble opcode = c.lnAnd then .andDir operand
  else if insNibble opcode = c.lnLda then .ldaDir operand
  else if insNibble opcode = c.lnSta then .staDir operand
  else .unknownNibble opcode operand

/-- R71, R75: the branch class. The table splits its unknown opcodes into two rows at 0x80. -/
def decodeBranch (c : Config) (opcode operand : Byte) : Instr :=
  if opcode = c.opcBra then .braRel operand
  else if opcode = c.opcBeq then .beqRel operand
  else if opcode < 0x80#8 then .unknownBranchLow opcode operand
  else .unknownBranchHigh opcode operand

/-- The instruction of an opcode byte and the byte after it (R65, R66). -/
def decodeTwoBytes (c : Config) (opcode operand : Byte) : Instr :=
  if isModeBearing opcode then
    if modeNibble opcode = immediateMode then decodeImmediate c opcode operand
    else if modeNibble opcode = directMode then decodeDirect c opcode operand
    else .badMode opcode
  else decodeBranch c opcode operand

/-- The decoder: the first instruction of a byte sequence, in ascending address order (R40), and the bytes after it. -/
def decode (c : Config) : List Byte → Except DecodeError (Instr × List Byte)
  | [] => .error .noOpcode
  | opcode :: rest =>
    match decodeOneByte opcode with
    | some i => .ok (i, rest)
    | none =>
      match rest with
      | [] => .error (.noOperand opcode)
      | operand :: rest' => .ok (decodeTwoBytes c opcode operand, rest')

/-- A format M opcode byte: mode nibble, instruction nibble (R63: `mmmm iiii`). -/
def opcodeM (mode ins : BitVec 4) : Byte := mode ++ ins

/-- The encoder, from the same formats (R63, R64): the bytes of an instruction in ascending address order. -/
def encode (c : Config) : Instr → List Byte
  | .addImm imm8 => [opcodeM immediateMode c.lnAdd, imm8]
  | .addDir dir8 => [opcodeM directMode c.lnAdd, dir8]
  | .andImm imm8 => [opcodeM immediateMode c.lnAnd, imm8]
  | .andDir dir8 => [opcodeM directMode c.lnAnd, dir8]
  | .ldaImm imm8 => [opcodeM immediateMode c.lnLda, imm8]
  | .ldaDir dir8 => [opcodeM directMode c.lnLda, dir8]
  | .staDir dir8 => [opcodeM directMode c.lnSta, dir8]
  | .braRel rel8 => [c.opcBra, rel8]
  | .beqRel rel8 => [c.opcBeq, rel8]
  | .staImm imm8 => [opcodeM immediateMode c.lnSta, imm8]
  | .unknownNibble opcode operand => [opcode, operand]
  | .badMode opcode => [opcode]
  | .unknownBranchLow opcode operand => [opcode, operand]
  | .unknownBranchHigh opcode operand => [opcode, operand]

/-- The mnemonic of an instruction's row, as spec/opcode_table.json spells it. -/
def Instr.mnemonic : Instr → String
  | .addImm _ => "ADD__imm8"
  | .addDir _ => "ADD_dir8"
  | .andImm _ => "AND__imm8"
  | .andDir _ => "AND_dir8"
  | .ldaImm _ => "LDA__imm8"
  | .ldaDir _ => "LDA_dir8"
  | .staDir _ => "STA_dir8"
  | .braRel _ => "BRA_rel8"
  | .beqRel _ => "BEQ_rel8"
  | .staImm _ => "STA__imm8"
  | .unknownNibble _ _ => "unknown_low_nibble__opcode_0xA0..0xBF_not_listed_earlie"
  | .badMode _ => "bad_mode_nibble__opcode_0xC0..0xFF"
  | .unknownBranchLow _ _ => "unknown_branch-class_opcode_0x00..0x7F_not_listed_earli"
  | .unknownBranchHigh _ _ => "unknown_branch-class_opcode_0x80..0x9F"

/-- One row of the opcode table: match and mask on the 16-bit frame whose bits 15..8 are the opcode byte (R77). -/
structure OpcodeRow where
  mnemonic : String
  value : Word
  mask : Word
deriving DecidableEq, Repr

/-- spec/opcode_table.json, in the order of its priority numbers (R77), for the default parameters. -/
def opcodeTable : List OpcodeRow :=
  [⟨"ADD__imm8", 0xAB00#16, 0xFF00#16⟩,
   ⟨"ADD_dir8", 0xBB00#16, 0xFF00#16⟩,
   ⟨"AND__imm8", 0xA400#16, 0xFF00#16⟩,
   ⟨"AND_dir8", 0xB400#16, 0xFF00#16⟩,
   ⟨"LDA__imm8", 0xA600#16, 0xFF00#16⟩,
   ⟨"LDA_dir8", 0xB600#16, 0xFF00#16⟩,
   ⟨"STA_dir8", 0xB700#16, 0xFF00#16⟩,
   ⟨"BRA_rel8", 0x2000#16, 0xFF00#16⟩,
   ⟨"BEQ_rel8", 0x2700#16, 0xFF00#16⟩,
   ⟨"STA__imm8", 0xA700#16, 0xFF00#16⟩,
   ⟨"unknown_low_nibble__opcode_0xA0..0xBF_not_listed_earlie", 0xA000#16, 0xE000#16⟩,
   ⟨"bad_mode_nibble__opcode_0xC0..0xFF", 0xC000#16, 0xC000#16⟩,
   ⟨"unknown_branch-class_opcode_0x00..0x7F_not_listed_earli", 0x0000#16, 0x8000#16⟩,
   ⟨"unknown_branch-class_opcode_0x80..0x9F", 0x8000#16, 0xE000#16⟩]

/-- The row of a 16-bit frame: the first that matches, in priority order (R77). -/
def OpcodeRow.ofFrame (frame : Word) : Option OpcodeRow :=
  opcodeTable.find? fun row => frame &&& row.mask == row.value

/-- The bytes of a word numbered as the opcode table numbers it (R77, log entry 17): on the 16-bit frame the opcode byte is
bits 15..8 and the second byte bits 7..0; a word given as the opcode byte alone is that byte and an operand byte of zero. -/
def tableBytes (nbits w : Nat) : Byte × Byte :=
  if nbits ≤ 8 ∧ w < 256 then (BitVec.ofNat 8 w, 0x00#8)
  else (BitVec.ofNat 8 (w / 256), BitVec.ofNat 8 w)

/-- The instruction the decoder reads from one word of the opcode table. -/
def decodeTableWord (nbits w : Nat) : Option Instr :=
  match decode Config.specDefault [(tableBytes nbits w).1, (tableBytes nbits w).2] with
  | .ok (i, _) => some i
  | .error _ => none

end Sys2Proof
end

