-- ==== Sys2Proof/Machine/State.lean ====
section
/-! DEFINITION. The state of the machine as plain data (spec/10_state.md R10, spec/20_memory.md R30), its reset value (R28)
and the ways a step can stop (spec/60_exceptions.md R110 to R117). -/

namespace Sys2Proof.Machine

/-- The 65536 stored bytes (R30) as a list of (address, byte) cells in canonical form: addresses strictly rising, below
65536, and no cell equal to what an unlisted address reads as (0x00, the reset contents of every byte, R28). -/
abbrev Memory := List Host.Cell

/-- The whole state (R9, R10): the register file and the stored bytes, and the model's own count of free draws. `H` and `X` are views of `hx` (R15); the region map
and the parameters are configuration, not state (R9). -/
structure State where
  /-- `A`, the accumulator (R11). -/
  a : Byte
  /-- `PC`, the program counter (R12). -/
  pc : Word
  /-- `SP`, the stack pointer, unused by every instruction (R13). -/
  sp : Word
  /-- `HX`, the index register, of which `H` and `X` are the two byte views (R14, R15). -/
  hx : Word
  /-- `CCR`, the condition-code register: six flags and two unnamed bits (R17, R21). -/
  ccr : Byte
  /-- `Store`, the address space (R30). -/
  mem : Memory
  /-- The MODEL's own, not the spec's (log entry 26): how many free bytes masked port-A reads have drawn. It moves only under the
  policy `any` of R7, which the spec does not set. -/
  draws : Nat
deriving DecidableEq, Repr

/-- R28, R130, R131: after construction and after every reset, every piece of state is zero. `draws` is no state of the spec; its zero is a
DESIGN CHOICE (log entry 26). -/
def State.reset : State where
  a := 0x00#8
  pc := 0x0000#16
  sp := 0x0000#16
  hx := 0x0000#16
  ccr := 0x00#8
  mem := []
  draws := 0

/-- The step failures of R110. R117 has a model return a failure as a fault outcome, never final; the fault carries the
opcode byte (R115) and the state the failing cycle leaves (R116: the program counter advanced, nothing else changed), from
which the host may go on (R117, R120). -/
inductive Fault where
  /-- `InvalidAddressingMode` (R111). Raised by the bad-mode and the STA-immediate encodings (R72, R73). Safe: a run that
  reaches it is faulted and never final. -/
  | invalidAddressingMode (opcode : Byte) (after : State)
  /-- `InvalidOpcode` (R112). Raised by the unknown-nibble and the unknown-branch encodings (R74, R75). Safe, as above. -/
  | invalidOpcode (opcode : Byte) (after : State)
deriving DecidableEq, Repr

/-- The refusals. No step of this machine ends in one. -/
inductive Refusal where
  /-- An instruction that has no meaning yet; raised by an arm of exec only, and by none now. Safe: the model stops. -/
  | notModelled (mnemonic : String)
deriving DecidableEq, Repr

/-- What a meaning answers. -/
abbrev Outcome := Host.Outcome State Fault Refusal

end Sys2Proof.Machine
end

