-- ==== Sys2Proof/Machine/Ops.lean ====
section
/-! DEFINITION. The named operations over registers and memory: width conversions (R148), the index register's views (R15),
the stored bytes (R30), the region map (R31), the byte read and write with the port-A gate (R34, R36), instruction fetch
(R61) and the raising of a failure (R110 to R116). -/

namespace Sys2Proof.Machine

/-- `zext_16` of R148. -/
def zext16 (v : Byte) : Word := v.zeroExtend 16

/-- `sext_16` of R148. -/
def sext16 (v : Byte) : Word := v.signExtend 16

/-- `signed8` of R148: the two's-complement value of a byte. -/
def signed8 (v : Byte) : Int := if v.toNat < 128 then (v.toNat : Int) else (v.toNat : Int) - 256

/-- `hi8` of R148. -/
def hi8 (w : Word) : Byte := w.extractLsb' 8 8

/-- `lo8` of R148. -/
def lo8 (w : Word) : Byte := w.extractLsb' 0 8

/-- `{a, b}` of R148: `a` is the high byte. -/
def joinBytes (high low : Byte) : Word := high ++ low

/-- `H`, the high view of the index register (R15). -/
def State.h (s : State) : Byte := hi8 s.hx

/-- `X`, the low view of the index register (R15). -/
def State.x (s : State) : Byte := lo8 s.hx

/-- `HX <- v` of R15. -/
def State.setHX (s : State) (v : Word) : State := { s with hx := v }

/-- `H <- b` of R15: X unchanged. -/
def State.setH (s : State) (b : Byte) : State := s.setHX (joinBytes b s.x)

/-- `X <- b` of R15: H unchanged. -/
def State.setX (s : State) (b : Byte) : State := s.setHX (joinBytes s.h b)

/-- What an address with no cell reads as: the reset contents of every byte (R28). -/
def Memory.unlisted : Byte := 0x00#8

/-- The stored byte at an address. -/
def Memory.get : Memory → Nat → Byte
  | [], _ => Memory.unlisted
  | (k, v) :: m, a => if k = a then v else Memory.get m a

/-- Puts a cell in front of the first cell with a greater address. -/
def Memory.insertCell (a : Nat) (v : Byte) : Memory → Memory
  | [] => [(a, v)]
  | cell :: m => if a < cell.1 then (a, v) :: cell :: m else cell :: Memory.insertCell a v m

/-- Stores a byte, keeping the canonical form: a byte equal to the unlisted value leaves no cell. -/
def Memory.set (m : Memory) (a : Nat) (v : Byte) : Memory :=
  if v = Memory.unlisted then m.filter (fun cell => cell.1 != a)
  else Memory.insertCell a v (m.filter (fun cell => cell.1 != a))

/-- The canonical form of a memory. -/
abbrev Memory.wf (m : Memory) : Prop :=
  m.Pairwise (fun p q => p.1 < q.1) ∧ ∀ cell ∈ m, cell.1 < 65536 ∧ cell.2 ≠ Memory.unlisted

/-- `Store[addr]` of R30: the raw stored byte, past the port-A gate. -/
def State.store (s : State) (addr : Word) : Byte := s.mem.get addr.toNat

/-- `Store[addr] := v`: the raw store, past the port-A rejection. -/
def State.setStore (s : State) (addr : Word) (v : Byte) : State :=
  { s with mem := s.mem.set addr.toNat v }

/-- The tag of an address (R31). -/
inductive Region where
  | hardware
  | ram
  | rom
deriving DecidableEq, Repr

/-- The region map of R31. -/
def regionOf (addr : Word) : Region :=
  if addr ≤ 0x007F#16 then .hardware else if addr ≤ 0x107F#16 then .ram else .rom

/-- R38, R7: the address is the one that the policy ADDR_FFFF takes out of the address space. -/
def isExcluded (c : Config) (addr : Word) : Bool :=
  addr == 0xFFFF#16 && c.addrFFFF == .readsZeroIgnoresWrites

/-- `PORTA_MASKED_READ` of R34 and R7: the byte of the policy, or a free byte under `any` (log entry 5). -/
def maskedByte (c : Config) (draw : Nat) : Byte :=
  match c.maskedRead with
  | .byte b => b
  | .any => Config.freeByte draw

/-- `MemRead(addr, 1)` of R34, the source's `readByte`: the read is gated at the port-A data register only. This is the byte the
read yields; `afterRead` is the state it leaves. -/
def memRead (c : Config) (s : State) (addr : Word) : Byte :=
  if addr = c.portAData then
    if s.store c.portADdr = 0x00#8 then s.store addr else maskedByte c s.draws
  else if isExcluded c addr then 0x00#8
  else s.store addr

/-- A read of this address draws a free byte: a masked read under the policy `any` (R7, U3). -/
def drawsFreeByte (c : Config) (s : State) (addr : Word) : Bool :=
  c.maskedRead == .any && addr == c.portAData && s.store c.portADdr != 0x00#8

/-- The state after `MemRead(addr, 1)`. A read changes no state of the spec (R34, R43); a free draw moves the model's own count on,
so that two draws are two values (U3, log entry 26). -/
def afterRead (c : Config) (s : State) (addr : Word) : State :=
  if drawsFreeByte c s addr then { s with draws := s.draws + 1 } else s

/-- `MemWrite(addr, 1, v)` of R36, the source's `writeByte`: silently rejected at the port-A data register only. -/
def memWrite (c : Config) (s : State) (addr : Word) (v : Byte) : State :=
  if addr = c.portAData then s
  else if isExcluded c addr then s
  else s.setStore addr v

/-- `Fetch8()` of R61: one instruction byte, and the state with the program counter moved past it. -/
def fetch8 (c : Config) (s : State) : Byte × State :=
  (memRead c s s.pc, { afterRead c s s.pc with pc := s.pc + 1#16 })

/-- The fetch and decode phases of R60: the instruction at the program counter, and the state when it executes, whose program
counter is past the last byte consumed (R12). The operand byte is not read for a bad mode nibble (R72). -/
def fetchInstr (c : Config) (s : State) : Instr × State :=
  match decodeOneByte (fetch8 c s).1 with
  | some i => (i, (fetch8 c s).2)
  | none =>
    (decodeTwoBytes c (fetch8 c s).1 (fetch8 c (fetch8 c s).2).1, (fetch8 c (fetch8 c s).2).2)

/-- The two failures a step can raise (R110). -/
inductive Failure where
  | invalidAddressingMode
  | invalidOpcode
deriving DecidableEq, Repr

/-- `raise` of R148 and R116, the one place where a failure is taken: the cycle ends at once and every change it has made
stays; nothing is saved, no register, mode or mask changes and control goes to no handler. -/
def raiseFailure (failure : Failure) (opcode : Byte) (s : State) : Outcome :=
  match failure with
  | .invalidAddressingMode => .fault (.invalidAddressingMode opcode s)
  | .invalidOpcode => .fault (.invalidOpcode opcode s)

/-- What follows a failure (R117, R120): there is no return instruction and no latched fault, so the host goes on, if it does,
from the state the failing cycle left. -/
def Fault.after : Fault → State
  | .invalidAddressingMode _ s => s
  | .invalidOpcode _ s => s

/-- The opcode byte a failure reports (R115). -/
def Fault.opcode : Fault → Byte
  | .invalidAddressingMode opcode _ => opcode
  | .invalidOpcode opcode _ => opcode

/-- Stores an instruction's two bytes where the next cycle fetches them (log entries 15 and 16): past the CPU-side write
rejection, and, if one of them lies at the port-A data register, with the gate opened so that it can be fetched (R53). -/
def State.placeForFetch (c : Config) (s : State) (opcode operand : Byte) : State :=
  let gated := s.pc = c.portAData ∨ s.pc + 1#16 = c.portAData
  let open' := if gated then s.setStore c.portADdr 0x00#8 else s
  (open'.setStore s.pc opcode).setStore (s.pc + 1#16) operand

end Sys2Proof.Machine
end

