-- ==== Sys2Proof/Machine/Flags.lean ====
section
/-! DEFINITION. The condition-code register and the flag updater: isFlag and setFlag (spec/10_state.md R18, R20), SetNZ
(spec/40_arithmetic_logic.md R82) and the flag conditions of ADD (R80, R84). -/

namespace Sys2Proof.Machine

/-- `isFlag(f)` of R18. -/
def ccrFlag (c : Config) (ccr : Byte) (f : Flag) : Bool := ccr &&& c.mask f != 0x00#8

/-- `setFlag(f, b)` of R20: OR to set, AND-NOT to clear. -/
def ccrSetFlag (c : Config) (ccr : Byte) (f : Flag) (b : Bool) : Byte :=
  if b then ccr ||| c.mask f else ccr &&& ~~~(c.mask f)

/-- `CCR.f`, read (R18). -/
def State.isFlag (c : Config) (s : State) (f : Flag) : Bool := ccrFlag c s.ccr f

/-- `CCR.f <- b` (R20). -/
def State.setFlag (c : Config) (s : State) (f : Flag) (b : Bool) : State :=
  { s with ccr := ccrSetFlag c s.ccr f b }

/-- The mask of the bits that no flag names (R21). -/
def unnamedBits (c : Config) : Byte :=
  ~~~(c.maskC ||| c.maskZ ||| c.maskN ||| c.maskI ||| c.maskH ||| c.maskV)

/-- `SetNZ(v)` of R82: N is the high bit, Z the zero test, each assigned. -/
def setNZ (c : Config) (v : Byte) (s : State) : State :=
  (s.setFlag c .negative v.msb).setFlag c .zero (v == 0x00#8)

/-- C of ADD (R80): the unsigned sum exceeds 0xFF. -/
def addCarry (a data : Byte) : Bool := decide (0xFF < a.toNat + data.toNat)

/-- H of ADD (R80, R84, the policy HALF_RULE = nibble_sum of R7): the low nibbles carry into bit 4. Log entry 9. -/
def addHalf (a data : Byte) : Bool := decide (0x0F < (a &&& 0x0F#8).toNat + (data &&& 0x0F#8).toNat)

/-- V of ADD (R80): both operands of one sign, the result of the other. -/
def addOverflow (a data : Byte) : Bool := a.msb == data.msb && (a + data).msb != a.msb

end Sys2Proof.Machine
end

