-- ==== Sys2Proof/Machine/Operands.lean ====
section
/-! DEFINITION. The two operand addressing modes (spec/41_load_store.md R92, spec/30_encoding.md R67, R68). -/

namespace Sys2Proof.Machine

/-- An operand as the instruction names it (R92). -/
inductive Operand where
  /-- Immediate: the operand byte itself. -/
  | immediate (imm8 : Byte)
  /-- Direct: the byte at an 8-bit address. -/
  | direct (dir8 : Byte)
deriving DecidableEq, Repr

/-- `ea = zext_16(dir8)` of R92: zero-extended, no base added. -/
def effectiveAddress (dir8 : Byte) : Word := zext16 dir8

/-- `data` of R92: the immediate byte, or the byte that the address space yields at the effective address (R34). -/
def Operand.value (c : Config) (s : State) : Operand → Byte
  | .immediate imm8 => imm8
  | .direct dir8 => memRead c s (effectiveAddress dir8)

/-- The state after the operand's data is read (R47, step 3): only a direct operand is a read. -/
def Operand.afterRead (c : Config) (s : State) : Operand → State
  | .immediate _ => s
  | .direct dir8 => Machine.afterRead c s (effectiveAddress dir8)

end Sys2Proof.Machine
end

