-- ==== Sys2Proof/Machine/Arithmetic.lean ====
section
/-! DEFINITION. ADD and AND (spec/40_arithmetic_logic.md R80, R81). The program counter is already past the instruction. -/

namespace Sys2Proof.Machine

/-- `exec ADD(data)` of R80, its assignments in the rule's order; the accumulator is read first. -/
def aluAdd (c : Config) (data : Byte) (s : State) : State :=
  let a := s.a
  let r := a + data
  let s := s.setFlag c .overflow (addOverflow a data)
  let s := s.setFlag c .half (addHalf a data)
  let s := s.setFlag c .negative r.msb
  let s := s.setFlag c .zero (r == 0x00#8)
  let s := s.setFlag c .carry (addCarry a data)
  { s with a := r }

/-- `exec AND(data)` of R81: V cleared, N and Z assigned. -/
def aluAnd (c : Config) (data : Byte) (s : State) : State :=
  let r := s.a &&& data
  setNZ c r (({ s with a := r } : State).setFlag c .overflow false)

/-- ADD #imm8 (R80). -/
def execAddImm (imm8 : Byte) (s : State) : Outcome :=
  .next (aluAdd Config.specDefault ((Operand.immediate imm8).value Config.specDefault s)
    ((Operand.immediate imm8).afterRead Config.specDefault s))

/-- ADD dir8 (R80). -/
def execAddDir (dir8 : Byte) (s : State) : Outcome :=
  .next (aluAdd Config.specDefault ((Operand.direct dir8).value Config.specDefault s)
    ((Operand.direct dir8).afterRead Config.specDefault s))

/-- AND #imm8 (R81). -/
def execAndImm (imm8 : Byte) (s : State) : Outcome :=
  .next (aluAnd Config.specDefault ((Operand.immediate imm8).value Config.specDefault s)
    ((Operand.immediate imm8).afterRead Config.specDefault s))

/-- AND dir8 (R81). -/
def execAndDir (dir8 : Byte) (s : State) : Outcome :=
  .next (aluAnd Config.specDefault ((Operand.direct dir8).value Config.specDefault s)
    ((Operand.direct dir8).afterRead Config.specDefault s))

end Sys2Proof.Machine
end

