-- ==== Sys2Proof/Machine/Branch.lean ====
section
/-! DEFINITION. BRA and BEQ (spec/42_branch.md R100, R101). The program counter is already past the offset byte. -/

namespace Sys2Proof.Machine

/-- `exec BRA(rel)` of R100: the sign-extended offset is added modulo 65536. -/
def branch (rel8 : Byte) (s : State) : State := { s with pc := s.pc + sext16 rel8 }

/-- `exec BEQ(rel)` of R101: as BRA when Z is set, nothing otherwise. -/
def branchIfZero (c : Config) (rel8 : Byte) (s : State) : State :=
  if s.isFlag c .zero then branch rel8 s else s

/-- BRA rel8 (R100). -/
def execBraRel (rel8 : Byte) (s : State) : Outcome := .next (branch rel8 s)

/-- BEQ rel8 (R101). -/
def execBeqRel (rel8 : Byte) (s : State) : Outcome := .next (branchIfZero Config.specDefault rel8 s)

end Sys2Proof.Machine
end

