-- ==== Sys2Proof/Machine/Failing.lean ====
section
/-! DEFINITION. The failing encodings (spec/30_encoding.md R72 to R75): each raises the failure the spec names
(spec/60_exceptions.md R111, R112). The program counter is already past the bytes the cycle consumed. -/

namespace Sys2Proof.Machine

/-- The opcode byte of STA with the immediate mode nibble (R73). -/
def staImmOpcode (c : Config) : Byte := opcodeM immediateMode c.lnSta

/-- STA #imm8 (R73, R111 case b): memory, A and the flags unchanged. Log entry 8. -/
def execStaImm (_imm8 : Byte) (s : State) : Outcome :=
  raiseFailure .invalidAddressingMode (staImmOpcode Config.specDefault) s

/-- Unknown instruction nibble (R74, R112 case a). -/
def execUnknownNibble (opcode _operand : Byte) (s : State) : Outcome := raiseFailure .invalidOpcode opcode s

/-- Invalid mode nibble (R72, R111 case a). -/
def execBadMode (opcode : Byte) (s : State) : Outcome := raiseFailure .invalidAddressingMode opcode s

/-- Unknown branch-class opcode, 0x00..0x7F (R75, R112 case b). -/
def execUnknownBranchLow (opcode _operand : Byte) (s : State) : Outcome := raiseFailure .invalidOpcode opcode s

/-- Unknown branch-class opcode, 0x80..0x9F (R75, R112 case b). -/
def execUnknownBranchHigh (opcode _operand : Byte) (s : State) : Outcome := raiseFailure .invalidOpcode opcode s

end Sys2Proof.Machine
end

