-- ==== Sys2Proof/Machine/LoadStore.lean ====
section
/-! DEFINITION. LDA and STA (spec/41_load_store.md R90, R91). The program counter is already past the instruction. -/

namespace Sys2Proof.Machine

/-- `exec LDA(data)` of R90: V cleared, N and Z assigned from the loaded value. -/
def loadAcc (c : Config) (data : Byte) (s : State) : State :=
  setNZ c data (({ s with a := data } : State).setFlag c .overflow false)

/-- `exec STA(ea)` of R91: the write may be rejected by the address space (R36), the flags follow the accumulator. -/
def storeAcc (c : Config) (ea : Word) (s : State) : State :=
  setNZ c s.a ((memWrite c s ea s.a).setFlag c .overflow false)

/-- LDA #imm8 (R90). -/
def execLdaImm (imm8 : Byte) (s : State) : Outcome :=
  .next (loadAcc Config.specDefault ((Operand.immediate imm8).value Config.specDefault s)
    ((Operand.immediate imm8).afterRead Config.specDefault s))

/-- LDA dir8 (R90). -/
def execLdaDir (dir8 : Byte) (s : State) : Outcome :=
  .next (loadAcc Config.specDefault ((Operand.direct dir8).value Config.specDefault s)
    ((Operand.direct dir8).afterRead Config.specDefault s))

/-- STA dir8 (R91). -/
def execStaDir (dir8 : Byte) (s : State) : Outcome :=
  .next (storeAcc Config.specDefault (effectiveAddress dir8) s)

end Sys2Proof.Machine
end

