-- ==== Sys2Proof/Machine/Dispatch.lean ====
section
/-! DEFINITION. The execute phase of R60: one arm per instruction, each a call of its meaning. -/

namespace Sys2Proof.Machine

def exec (i : Instr) (s : State) : Host.Outcome State Fault Refusal :=
  match i with
  | .addImm imm8 => Sys2Proof.Machine.execAddImm imm8 s
  | .addDir dir8 => Sys2Proof.Machine.execAddDir dir8 s
  | .andImm imm8 => Sys2Proof.Machine.execAndImm imm8 s
  | .andDir dir8 => Sys2Proof.Machine.execAndDir dir8 s
  | .ldaImm imm8 => Sys2Proof.Machine.execLdaImm imm8 s
  | .ldaDir dir8 => Sys2Proof.Machine.execLdaDir dir8 s
  | .staDir dir8 => Sys2Proof.Machine.execStaDir dir8 s
  | .braRel rel8 => Sys2Proof.Machine.execBraRel rel8 s
  | .beqRel rel8 => Sys2Proof.Machine.execBeqRel rel8 s
  | .staImm imm8 => Sys2Proof.Machine.execStaImm imm8 s
  | .unknownNibble opcode operand => Sys2Proof.Machine.execUnknownNibble opcode operand s
  | .badMode opcode => Sys2Proof.Machine.execBadMode opcode s
  | .unknownBranchLow opcode operand => Sys2Proof.Machine.execUnknownBranchLow opcode operand s
  | .unknownBranchHigh opcode operand => Sys2Proof.Machine.execUnknownBranchHigh opcode operand s

end Sys2Proof.Machine
end

