-- ==== Sys2Proof/Machine/Step.lean ====
section
/-! DEFINITION. One `step` request as one instruction cycle: fetch, decode, execute (spec/30_encoding.md R60). -/

namespace Sys2Proof.Machine

/-- One instruction cycle (R60). The instruction executes in the state whose program counter is past its bytes (R12). -/
def step (s : State) : Host.Outcome State Fault Refusal :=
  exec (fetchInstr Config.specDefault s).1 (fetchInstr Config.specDefault s).2

/-- `s` with one word of the opcode table stored where the next cycle fetches it. -/
def State.withFetchWord (s : State) (nbits w : Nat) : State :=
  s.placeForFetch Config.specDefault (tableBytes nbits w).1 (tableBytes nbits w).2

end Sys2Proof.Machine
end

