-- ==== Sys2Proof/Machine/Assembler.lean ====
section
/-! DEFINITION. The assembler forms of spec/30_encoding.md R78: what a line stands for, as an instruction of the machine. -/

namespace Sys2Proof.Machine

/-- One line of R78: the immediate and direct forms name their operand, a branch names its target address. -/
inductive AsmLine where
  | add (op : Operand)
  | and (op : Operand)
  | lda (op : Operand)
  | sta (dir8 : Byte)
  | bra (target : Word)
  | beq (target : Word)
deriving DecidableEq, Repr

/-- The offset byte of a branch at `addr` to `target` (R78): the distance from the byte after the branch, taken modulo 65536
as a signed number, which must lie in -128 to 127. -/
def branchOffset (addr target : Word) : Option Byte :=
  let distance := (target - (addr + 2#16)).toInt
  if -128 ≤ distance ∧ distance ≤ 127 then some (BitVec.ofInt 8 distance) else none

/-- The instruction of a line whose opcode byte stands at `addr` (R78). None: the branch does not reach. -/
def assemble (addr : Word) : AsmLine → Option Instr
  | .add (.immediate imm8) => some (.addImm imm8)
  | .add (.direct dir8) => some (.addDir dir8)
  | .and (.immediate imm8) => some (.andImm imm8)
  | .and (.direct dir8) => some (.andDir dir8)
  | .lda (.immediate imm8) => some (.ldaImm imm8)
  | .lda (.direct dir8) => some (.ldaDir dir8)
  | .sta dir8 => some (.staDir dir8)
  | .bra target => (branchOffset addr target).map .braRel
  | .beq target => (branchOffset addr target).map .beqRel

end Sys2Proof.Machine
end

