-- ==== Sys2Proof/Machine/Cycle.lean ====
section
/-! DEFINITION. The instruction cycle a second time, as the single block of pseudocode of rule R60 reads, with the result of
the `step` request (R115) beside the state it leaves, and for every choice of the parameters of R4 to R7. It names no
instruction of Syntax and no decoder: that Machine.step, which decodes and dispatches, agrees with it is a statement. -/

namespace Sys2Proof.Machine

/-- The result of a `step` request (R8, R115). -/
inductive StepResult where
  | ok
  | invalidAddressingMode (opcode : Byte)
  | invalidOpcode (opcode : Byte)
deriving DecidableEq, Repr

/-- R60 after the mode was resolved: select by the low nibble. ADD, AND and LDA read their data, STA does not (R47). -/
def cycleSelect (c : Config) (op : Byte) (operand : Operand) (s : State) : StepResult × State :=
  let ins := insNibble op
  if ins = c.lnAdd then (.ok, aluAdd c (operand.value c s) (operand.afterRead c s))
  else if ins = c.lnAnd then (.ok, aluAnd c (operand.value c s) (operand.afterRead c s))
  else if ins = c.lnLda then (.ok, loadAcc c (operand.value c s) (operand.afterRead c s))
  else if ins = c.lnSta then
    match operand with
    | .immediate _ => (.invalidAddressingMode op, s)
    | .direct dir8 => (.ok, storeAcc c (effectiveAddress dir8) s)
  else (.invalidOpcode op, s)

/-- R60: one whole cycle. -/
def cycle (c : Config) (s : State) : StepResult × State :=
  let op := memRead c s s.pc
  let s := { afterRead c s s.pc with pc := s.pc + 1#16 }
  if 0xA0#8 ≤ op then
    let mode := modeNibble op
    if mode = 0xA#4 then
      let imm8 := memRead c s s.pc
      let s := { afterRead c s s.pc with pc := s.pc + 1#16 }
      cycleSelect c op (.immediate imm8) s
    else if mode = 0xB#4 then
      let dir8 := memRead c s s.pc
      let s := { afterRead c s s.pc with pc := s.pc + 1#16 }
      cycleSelect c op (.direct dir8) s
    else (.invalidAddressingMode op, s)
  else
    let rel := memRead c s s.pc
    let s := { afterRead c s s.pc with pc := s.pc + 1#16 }
    if op = c.opcBra then (.ok, branch rel s)
    else if op = c.opcBeq then (.ok, branchIfZero c rel s)
    else (.invalidOpcode op, s)

/-- A cycle's result as an outcome of the model's step (R117: a failure is a fault outcome). -/
def outcomeOf : StepResult × State → Outcome
  | (.ok, s) => .next s
  | (.invalidAddressingMode opcode, s) => raiseFailure .invalidAddressingMode opcode s
  | (.invalidOpcode opcode, s) => raiseFailure .invalidOpcode opcode s

end Sys2Proof.Machine
end

