-- ==== Sys2Proof/Machine/HostInterface.lean ====
section
/-! DEFINITION. What the host can do between instruction cycles (spec/00_scope.md R8): every request of the abstract interface
as a total function of the machine and of what the host itself retains (R9, R132), for every choice of parameters. Requests
never overlap (R2, R144), so one request is one step of `serve`. -/

namespace Sys2Proof.Machine

/-- The register file as the host reads and replaces it whole (R27). `H` and `X` are views of `hx`, so every replacement
satisfies the alias invariant (R16). -/
structure RegisterFile where
  a : Byte
  pc : Word
  sp : Word
  hx : Word
  ccr : Byte
deriving DecidableEq, Repr

/-- The registers the host reads and writes one by one (R19). -/
inductive Register where
  | a
  | pc
  | sp
  | hx
  | h
  | x
  | ccr
deriving DecidableEq, Repr

/-- `getRegisterFile` of R27. -/
def State.registerFile (s : State) : RegisterFile := ⟨s.a, s.pc, s.sp, s.hx, s.ccr⟩

/-- `setRegisterFile` of R27. -/
def State.setRegisterFile (s : State) (r : RegisterFile) : State :=
  { s with a := r.a, pc := r.pc, sp := r.sp, hx := r.hx, ccr := r.ccr }

/-- A register's value (R19). -/
def State.readRegister (s : State) : Register → Nat
  | .a => s.a.toNat
  | .pc => s.pc.toNat
  | .sp => s.sp.toNat
  | .hx => s.hx.toNat
  | .h => s.h.toNat
  | .x => s.x.toNat
  | .ccr => s.ccr.toNat

/-- A host write of one register: the value is stored modulo 2^width (R19, 92_eei_decisions.md D16). -/
def State.writeRegister (s : State) (r : Register) (v : Nat) : State :=
  match r with
  | .a => { s with a := BitVec.ofNat 8 v }
  | .pc => { s with pc := BitVec.ofNat 16 v }
  | .sp => { s with sp := BitVec.ofNat 16 v }
  | .hx => s.setHX (BitVec.ofNat 16 v)
  | .h => s.setH (BitVec.ofNat 8 v)
  | .x => s.setX (BitVec.ofNat 8 v)
  | .ccr => { s with ccr := BitVec.ofNat 8 v }

/-- An integer is an address of the address space (R37, R38: 0 to 65535 inclusive). -/
def inRange (addr : Int) : Bool := decide (0 ≤ addr) && decide (addr < 65536)

/-- The host's `readByte`: 0x00 out of range (R37), else the primitive of the engine (R34, R54). -/
def hostReadByte (c : Config) (s : State) (addr : Int) : Byte :=
  if inRange addr then memRead c s (BitVec.ofInt 16 addr) else 0x00#8

/-- The state after the host's `readByte`. -/
def afterHostReadByte (c : Config) (s : State) (addr : Int) : State :=
  if inRange addr then afterRead c s (BitVec.ofInt 16 addr) else s

/-- The host's `writeByte`: nothing out of range (R37), else the primitive of the engine (R36, R54). -/
def hostWriteByte (c : Config) (s : State) (addr : Int) (v : Byte) : State :=
  if inRange addr then memWrite c s (BitVec.ofInt 16 addr) v else s

/-- `readWord` of R39: big-endian. At 0xFFFF it is outside the contract and refused (93_implementation_defined.md U6). That a word
address is a 16-bit value, so that a word access at -1 or at any other integer out of range is no move either, is the model's choice
(DESIGN CHOICE, log entry 21): R37 tolerates such an address for a byte access only. -/
def hostReadWord (c : Config) (s : State) (addr : Word) : Option Word :=
  if addr = 0xFFFF#16 then none
  else some (joinBytes (memRead c s addr) (memRead c (afterRead c s addr) (addr + 1#16)))

/-- The state after `readWord` of R39: two byte reads. -/
def afterHostReadWord (c : Config) (s : State) (addr : Word) : State :=
  afterRead c (afterRead c s addr) (addr + 1#16)

/-- `writeWord` of R39: the high byte at `addr`, then the low byte at `addr + 1`; refused at 0xFFFF (U6). -/
def hostWriteWord (c : Config) (s : State) (addr : Word) (v : Word) : Option State :=
  if addr = 0xFFFF#16 then none
  else some (memWrite c (memWrite c s addr (hi8 v)) (addr + 1#16) (lo8 v))

/-- `setHardwareInputBit(name, value)` of R51: the stored port-A data byte, past the CPU-side rejection. -/
def setHardwareInputBit (c : Config) (name : InputBit) (value : Bool) (s : State) : State :=
  let bit := BitVec.twoPow 8 (c.inputPosition name).val
  if value then s.setStore c.portAData (s.store c.portAData ||| bit)
  else s.setStore c.portAData (s.store c.portAData &&& ~~~bit)

/-- One record of a program image: a load address and the bytes from there on (R52, R138). -/
structure Record where
  address : Word
  data : List Byte
deriving DecidableEq, Repr

/-- A record from its bytes: the first two are the address, big-endian (R52). -/
def Record.ofBytes : List Byte → Option Record
  | high :: low :: data => some ⟨joinBytes high low, data⟩
  | _ => none

/-- Writes bytes from a cursor on, straight into `Store` (R52, 92_eei_decisions.md D19). False when a write target would
exceed the address space (R113); the bytes already written stay. -/
def loadBytes : List Byte → Nat → State → Bool × State
  | [], _, s => (true, s)
  | b :: bytes, cursor, s =>
    if cursor < 65536 then loadBytes bytes (cursor + 1) (s.setStore (BitVec.ofNat 16 cursor) b)
    else (false, s)

/-- `load` of R52: the records in order; the first write out of bounds ends the call (R113). -/
def loadRecords : List Record → State → Bool × State
  | [], s => (true, s)
  | r :: rs, s =>
    match loadBytes r.data r.address.toNat s with
    | (true, s') => loadRecords rs s'
    | (false, s') => (false, s')

/-- A program image: its records and its entry address (R52, R133). -/
structure Image where
  entry : Word
  records : List Record
deriving DecidableEq, Repr

/-- The machine and what the host retains outside it: the last image loaded with success (R9, R132). -/
structure System where
  core : State
  retained : Option Image
deriving DecidableEq, Repr

/-- The requests of the abstract interface (R8). A byte access names any integer (R37), a word access a 16-bit address: the latter
is the model's choice (DESIGN CHOICE, log entry 21), R37 and R39 leaving a word access at -1 open. -/
inductive Request where
  | step
  | reset
  | reload
  | load (image : Image)
  | readRegister (r : Register)
  | writeRegister (r : Register) (v : Nat)
  | readRegisterFile
  | writeRegisterFile (r : RegisterFile)
  | isFlag (f : Flag)
  | setFlag (f : Flag) (b : Bool)
  | readByte (addr : Int)
  | writeByte (v : Byte) (addr : Int)
  | readWord (addr : Word)
  | writeWord (addr v : Word)
  | setHardwareInputBit (name : InputBit) (value : Bool)
deriving DecidableEq, Repr

/-- What a request returns. -/
inductive Response where
  | done
  | stepped (r : StepResult)
  | value (v : Nat)
  | flag (b : Bool)
  | registerFile (r : RegisterFile)
  /-- `OutOfBounds` (R113), raised by `load` alone. -/
  | outOfBounds
  /-- A word access at 0xFFFF: outside the contract, the host has no such move (U6). -/
  | outsideContract
deriving DecidableEq, Repr

/-- `load(entry, records)` of R52. It does not write the program counter (90_conflicts.md C9); a success is retained for
`reload` (R132), a failure keeps what was retained and every byte already written (R113). -/
def serveLoad (image : Image) (m : System) : Response × System :=
  match loadRecords image.records m.core with
  | (true, s) => (.done, ⟨s, some image⟩)
  | (false, s) => (.outOfBounds, ⟨s, m.retained⟩)

/-- `reload` of R132: the last successful load again, and the program counter at its entry address; nothing if there was none
(92_eei_decisions.md D26). That a load which fails seeds no program counter is the model's choice (log entry 28). -/
def serveReload (m : System) : Response × System :=
  match m.retained with
  | none => (.done, m)
  | some image =>
    match loadRecords image.records m.core with
    | (true, s) => (.done, ⟨{ s with pc := image.entry }, m.retained⟩)
    | (false, s) => (.outOfBounds, ⟨s, m.retained⟩)

/-- One request served to its end (R2, R8). A reset zeroes every piece of state (R28, R130) and keeps the model's own count of
free draws, so that a draw after it is not one before it (log entry 26). -/
def serve (c : Config) (m : System) : Request → Response × System
  | .step => (.stepped (cycle c m.core).1, { m with core := (cycle c m.core).2 })
  | .reset => (.done, { m with core := { State.reset with draws := m.core.draws } })
  | .reload => serveReload m
  | .load image => serveLoad image m
  | .readRegister r => (.value (m.core.readRegister r), m)
  | .writeRegister r v => (.done, { m with core := m.core.writeRegister r v })
  | .readRegisterFile => (.registerFile m.core.registerFile, m)
  | .writeRegisterFile r => (.done, { m with core := m.core.setRegisterFile r })
  | .isFlag f => (.flag (m.core.isFlag c f), m)
  | .setFlag f b => (.done, { m with core := m.core.setFlag c f b })
  | .readByte addr => (.value (hostReadByte c m.core addr).toNat, { m with core := afterHostReadByte c m.core addr })
  | .writeByte v addr => (.done, { m with core := hostWriteByte c m.core addr v })
  | .readWord addr =>
    match hostReadWord c m.core addr with
    | some v => (.value v.toNat, { m with core := afterHostReadWord c m.core addr })
    | none => (.outsideContract, m)
  | .writeWord addr v =>
    match hostWriteWord c m.core addr v with
    | some s => (.done, { m with core := s })
    | none => (.outsideContract, m)
  | .setHardwareInputBit name value => (.done, { m with core := Machine.setHardwareInputBit c name value m.core })

/-- A session of requests served one after another. -/
def serveAll (c : Config) (m : System) : List Request → System
  | [] => m
  | r :: rs => serveAll c (serve c m r).2 rs

/-- The launch of R133, steps 1 to 4: reset, load, and the program counter at the entry address if the load succeeded.
DESIGN CHOICE (log entry 28): a load that fails ends the launch with the machine reset, the bytes already written in place (R113) and
the program counter not seeded. R133 says nothing of a load that fails. -/
def launch (c : Config) (image : Image) (m : System) : Response × System :=
  let m := (serve c m .reset).2
  match serve c m (.load image) with
  | (.done, m) => serve c m (.writeRegister .pc image.entry.toNat)
  | failed => failed

end Sys2Proof.Machine
end

