-- ==== Sys2Proof/Machine/RecordLoader.lean ====
section
/-! DEFINITION. The host-side record loader that boot depends on (spec/70_reset_and_hazards.md R136 to R141): text to program
image. The spec's scope file keeps it outside the hardware; it is here so that the launch of R133 is whole. -/

namespace Sys2Proof.Machine

/-- The recognised record types (R137, R141). -/
inductive RecordType where
  | data
  | count
  | endOfData
deriving DecidableEq, Repr

/-- The type digit of a record (R141); any other type fails the file (R137, 92_eei_decisions.md D22). -/
def recordType (ch : Char) : Option RecordType :=
  if ch = '1' then some .data
  else if ch = '5' then some .count
  else if ch = '9' then some .endOfData
  else none

/-- One hexadecimal digit, of either case (R137). -/
def hexDigit (ch : Char) : Option Nat :=
  if 48 ≤ ch.toNat ∧ ch.toNat ≤ 57 then some (ch.toNat - 48)
  else if 65 ≤ ch.toNat ∧ ch.toNat ≤ 70 then some (ch.toNat - 55)
  else if 97 ≤ ch.toNat ∧ ch.toNat ≤ 102 then some (ch.toNat - 87)
  else none

/-- Pairs of hexadecimal digits as bytes; anything else is a length mismatch (R114). -/
def hexBytes : List Char → Option (List Byte)
  | [] => some []
  | [_] => none
  | high :: low :: rest =>
    match hexDigit high, hexDigit low, hexBytes rest with
    | some h, some l, some bytes => some (BitVec.ofNat 8 (16 * h + l) :: bytes)
    | _, _, _ => none

/-- R136: line terminators are stripped. -/
def stripTerminators (text : List Char) : List Char :=
  text.filter fun ch => ch != '\n' && ch != '\r'

/-- The text cut at each record marker `S` (R141); the first segment is what stands before the first marker. -/
def cutAtMarkers : List Char → List (List Char)
  | [] => [[]]
  | ch :: rest =>
    match cutAtMarkers rest with
    | [] => [[ch]]
    | segment :: more => if ch = 'S' then [] :: segment :: more else (ch :: segment) :: more

/-- R136: one segment per record, anything before the first marker discarded. -/
def recordSegments (text : List Char) : List (List Char) := (cutAtMarkers (stripTerminators text)).tail

/-- The checksum of R137: the one's complement of the 8-bit sum of the declared bytes. -/
def checksum (bytes : List Byte) : Byte := ~~~(bytes.foldl (· + ·) 0x00#8)

/-- R137: one record's validation. The declared count must be the number of byte pairs present, and the last byte the
checksum of all the others. The answer is the record's address and data bytes (R138). -/
def validateRecord : List Char → Option (RecordType × List Byte)
  | [] => none
  | digit :: rest =>
    match recordType digit, hexBytes rest with
    | some type, some (count :: body) =>
      if body.length = count.toNat ∧ body.getLast? = some (checksum (count :: body.dropLast)) then
        some (type, body.dropLast)
      else none
    | _, _ => none

/-- R137: one failing record invalidates the whole file. -/
def validateAll : List (List Char) → Option (List (RecordType × List Byte))
  | [] => some []
  | segment :: rest =>
    match validateRecord segment, validateAll rest with
    | some r, some rs => some (r :: rs)
    | _, _ => none

/-- R139: the payload bytes of the data records; zero-length artifacts are removed. -/
def payloadsOf (records : List (RecordType × List Byte)) : List (List Byte) :=
  (records.filter fun r => r.1 == .data && !r.2.isEmpty).map (·.2)

/-- R139: the first two bytes of the end-of-data record, big-endian. There is an entry address only when the file has exactly
one such record and it has the two bytes (log entry 23). -/
def entryOf (records : List (RecordType × List Byte)) : Option Word :=
  match records.filter (fun r => r.1 == .endOfData) with
  | [(_, high :: low :: _)] => some (joinBytes high low)
  | _ => none

/-- What the parser returns (R136): the payloads in order and the entry address. -/
structure ParsedFile where
  entry : Option Word
  payloads : List (List Byte)
deriving DecidableEq, Repr

/-- R140: a file that fails validation gives the empty payload list, and no entry address (93_implementation_defined.md U13). -/
def parseRecords (text : List Char) : ParsedFile :=
  match validateAll (recordSegments text) with
  | some records => ⟨entryOf records, payloadsOf records⟩
  | none => ⟨none, []⟩

/-- Every payload as a record with its load address (R138); none if one has no address (log entry 23). -/
def recordsOfPayloads : List (List Byte) → Option (List Record)
  | [] => some []
  | p :: ps =>
    match Record.ofBytes p, recordsOfPayloads ps with
    | some r, some rs => some (r :: rs)
    | _, _ => none

/-- The image of a record file; none is `MalformedRecord` seen from the driver (R114, R140: the payload list is empty).
DESIGN CHOICE (log entry 27): a file that validates and holds no data record, an entry record alone, gives none too. The spec says
what an empty payload list means for a file that fails validation only; here it is "nothing to load" in both cases. -/
def imageOfText (text : List Char) : Option Image :=
  match parseRecords text with
  | ⟨some entry, p :: ps⟩ =>
    match recordsOfPayloads (p :: ps) with
    | some records => some ⟨entry, records⟩
    | none => none
  | _ => none

/-- The launch of R133 from text. A malformed file commits no part of its image (R114).
DESIGN CHOICE (log entry 28): the text is parsed before the reset, and a malformed file leaves the machine as it was, not reset. R133
lists the reset first and says nothing of a parse that fails, and R114 speaks of the memory image only. -/
def launchText (c : Config) (text : List Char) (m : System) : Option (Response × System) :=
  match imageOfText text with
  | some image => some (launch c image m)
  | none => none

end Sys2Proof.Machine
end

