-- ==== Sys2Proof/Safety.lean ====
section
/-! DEFINITION. What claims are stated in: the state invariant, the end of a run and a faulted run (spec/70_reset_and_hazards.md
R146, spec/60_exceptions.md R117). -/

namespace Sys2Proof.Machine

/-- The invariant of a state: its memory is in canonical form. The alias invariant of the index register (R16) needs no
clause, since `H` and `X` are views of the one stored value. -/
abbrev State.Inv (s : State) : Prop := s.mem.wf

/-- R146: a run is ended when the next step would execute BRA to its own opcode byte. -/
def State.ended (c : Config) (s : State) : Bool :=
  memRead c s s.pc == c.opcBra && memRead c s (s.pc + 1#16) == 0xFE#8

/-- The state the machine holds after `n` step requests without a failure. -/
def RunsTo (n : Nat) (s t : State) : Prop := Sys2Proof.core.run n s = .next t

/-- R146, R117: the run of `n` step requests reaches a failure; it is then faulted, not ended. -/
def Faulted (n : Nat) (s : State) : Prop := ∃ r, Sys2Proof.core.run n s = .fault r

/-- The CCR bits that a program may change: the five flags C Z N H V (R24, R94). -/
def programFlagBits (c : Config) : Byte := c.maskC ||| c.maskZ ||| c.maskN ||| c.maskH ||| c.maskV

/-- Every stored byte reads in `t` as it does in `s`. -/
def SameBytes (s t : State) : Prop := ∀ addr : Word, t.store addr = s.store addr

/-- Every stored byte outside `addr` reads in `t` as it does in `s`. -/
def SameBytesExcept (addr : Word) (s t : State) : Prop := ∀ b : Word, b ≠ addr → t.store b = s.store b

/-- The registers no instruction touches are as they were (R13, R14). -/
def SameHostRegisters (s t : State) : Prop := t.sp = s.sp ∧ t.hx = s.hx

/-- The listed flags, and the two unnamed CCR bits, are as they were (R20, R21). -/
def SameFlags (c : Config) (flags : List Flag) (s t : State) : Prop :=
  (∀ f ∈ flags, t.isFlag c f = s.isFlag c f) ∧ t.ccr &&& unnamedBits c = s.ccr &&& unnamedBits c

/-- N and Z are those of `v`, and V is clear: what AND, LDA and STA leave (R81, R90, R91). -/
def LogicFlags (c : Config) (v : Byte) (t : State) : Prop :=
  t.isFlag c .overflow = false ∧ (t.isFlag c .negative = true ↔ 128 ≤ v.toNat) ∧ (t.isFlag c .zero = true ↔ v = 0x00#8)

/-- The two states agree on everything that an instruction reads: A, PC, memory and the Z flag (R23, R24). The count of free draws
is no part of it: at the spec's setting of PORTA_MASKED_READ nothing reads it. -/
def AgreeOnInputs (c : Config) (s t : State) : Prop :=
  t.a = s.a ∧ t.pc = s.pc ∧ t.mem = s.mem ∧ t.isFlag c .zero = s.isFlag c .zero

/-- The two states agree on everything but the stored port-A data byte. -/
def AgreeButPort (c : Config) (s t : State) : Prop :=
  t.a = s.a ∧ t.pc = s.pc ∧ SameHostRegisters s t ∧ t.ccr = s.ccr ∧ t.draws = s.draws ∧ SameBytesExcept c.portAData s t

end Sys2Proof.Machine
end

