-- ==== Sys2Proof/Certificates/Slice0/Obligations.lean ====
section
/-! DEFINITION. The statements for the provers. A statement marked "model's choice" names the log entry it rests on; the numeric
opcodes, masks and port addresses in a statement are the spec's parameter defaults (log entries 1, 2, 4). -/

open Sys2Proof Sys2Proof.Machine

/-- After construction and after every reset, every piece of the spec's state is zero (10_state.md section 8,
70_reset_and_hazards.md section 1). That a reset keeps the count of free draws, which is no state of the spec, is the model's choice
(log entry 26). -/
def Obligations.ResetLeavesEverythingZero : Prop :=
  (State.reset.a = 0x00#8 ∧ State.reset.pc = 0x0000#16 ∧ State.reset.sp = 0x0000#16 ∧ State.reset.hx = 0x0000#16 ∧
    State.reset.h = 0x00#8 ∧ State.reset.x = 0x00#8 ∧ State.reset.ccr = 0x00#8) ∧
  (∀ (c : Config) (f : Flag), State.reset.isFlag c f = false) ∧
  (∀ addr : Word, State.reset.store addr = 0x00#8) ∧
  ∀ (c : Config) (m : System), (serve c m .reset).2.core = { State.reset with draws := m.core.draws }

/-- The invariant holds at reset. -/
def Obligations.ResetMeetsTheInvariant : Prop := State.reset.Inv

/-- A step is the execution of what the bytes at the program counter decode to, in the state whose program counter is past
them (30_encoding.md sections 1 and 2); and the two bytes there always decode to a well-formed instruction. -/
def Obligations.StepRunsTheDecodedInstruction : Prop :=
  ∀ s : State,
    (∀ (i : Instr) (rest : List Byte),
      decode Config.specDefault
          [memRead Config.specDefault s s.pc, memRead Config.specDefault s (s.pc + 1#16)] = .ok (i, rest) →
        step s = exec i { s with pc := s.pc + BitVec.ofNat 16 (encode Config.specDefault i).length }) ∧
    ∃ (i : Instr) (rest : List Byte),
      decode Config.specDefault
          [memRead Config.specDefault s s.pc, memRead Config.specDefault s (s.pc + 1#16)] = .ok (i, rest) ∧
        i.wf Config.specDefault = true

/-- Words written out from 30_encoding.md sections 2 and 5 with the default parameters (log entry 1). -/
def Obligations.SpecWordsDecodeAsWritten : Prop :=
  decodeTableWord 16 0b1010101101001100 = some (.addImm 0x4C#8) ∧
  decodeTableWord 16 0b1011010010010001 = some (.andDir 0x91#8) ∧
  decodeTableWord 16 0b1010011000000101 = some (.ldaImm 0x05#8) ∧
  decodeTableWord 16 0b1011011110010000 = some (.staDir 0x90#8) ∧
  decodeTableWord 16 0b0010000011111010 = some (.braRel 0xFA#8) ∧
  decodeTableWord 16 0b0010011100000010 = some (.beqRel 0x02#8) ∧
  decodeTableWord 16 0b1100011000000000 = some (.badMode 0xC6#8)

/-- For every legal choice of parameters, decoding the encoding of a well-formed instruction gives it back, with every byte
that follows it untouched. -/
def Obligations.DecodeInvertsEncode : Prop :=
  ∀ c : Config, c.Legal → ∀ i : Instr, i.wf c = true → ∀ rest : List Byte, decode c (encode c i ++ rest) = .ok (i, rest)

/-- Whatever decodes is well-formed, and encoding it gives back the bytes it was decoded from. -/
def Obligations.EncodeInvertsDecode : Prop :=
  ∀ (c : Config) (bytes : List Byte) (i : Instr) (rest : List Byte),
    decode c bytes = .ok (i, rest) → i.wf c = true ∧ encode c i ++ rest = bytes

/-- The decoder gives every 16-bit frame the row that the opcode table gives it, taken in priority order (30_encoding.md
section 5; the default parameters). -/
def Obligations.DecoderAgreesWithOpcodeTable : Prop :=
  ∀ opcode operand : Byte, ∃ (i : Instr) (rest : List Byte) (row : OpcodeRow),
    decode Config.specDefault [opcode, operand] = .ok (i, rest) ∧
      OpcodeRow.ofFrame (joinBytes opcode operand) = some row ∧ i.mnemonic = row.mnemonic

/-- Only a byte sequence that ends too early is refused by the decoder: the empty one, or one byte that needs an operand. -/
def Obligations.DecoderRefusesOnlyTruncatedInput : Prop :=
  ∀ (c : Config) (bytes : List Byte),
    (∃ e, decode c bytes = .error e) ↔ bytes = [] ∨ ∃ opcode : Byte, opcode < 0xC0#8 ∧ bytes = [opcode]

/-- ADD in both modes, for every state and operand: the result, the five flags and the frame (40_arithmetic_logic.md section 2;
H is the spec's decision D10, log entry 9). -/
def Obligations.AddAssignsResultAndFiveFlags : Prop :=
  ∀ (i : Instr) (data : Byte) (s : State),
    (i = .addImm data ∨ ∃ dir8, i = .addDir dir8 ∧ data = memRead Config.specDefault s (effectiveAddress dir8)) →
    ∃ t, exec i s = .next t ∧
      t.a.toNat = (s.a.toNat + data.toNat) % 256 ∧
      (t.isFlag Config.specDefault .carry = true ↔ 0xFF < s.a.toNat + data.toNat) ∧
      (t.isFlag Config.specDefault .overflow = true ↔ s.a.msb = data.msb ∧ t.a.msb ≠ s.a.msb) ∧
      (t.isFlag Config.specDefault .half = true ↔ 0x0F < s.a.toNat % 16 + data.toNat % 16) ∧
      (t.isFlag Config.specDefault .negative = true ↔ 128 ≤ t.a.toNat) ∧
      (t.isFlag Config.specDefault .zero = true ↔ t.a = 0x00#8) ∧
      SameFlags Config.specDefault [.interrupt] s t ∧ t.pc = s.pc ∧ SameHostRegisters s t ∧ SameBytes s t

/-- AND in both modes: the result, V cleared, N and Z assigned (D23, log entry 18), C, H and I kept, and the frame
(40_arithmetic_logic.md section 3). -/
def Obligations.AndAssignsResultAndLogicFlags : Prop :=
  ∀ (i : Instr) (data : Byte) (s : State),
    (i = .andImm data ∨ ∃ dir8, i = .andDir dir8 ∧ data = memRead Config.specDefault s (effectiveAddress dir8)) →
    ∃ t, exec i s = .next t ∧
      (∀ n, t.a.getLsbD n = (s.a.getLsbD n && data.getLsbD n)) ∧ LogicFlags Config.specDefault t.a t ∧
      SameFlags Config.specDefault [.carry, .half, .interrupt] s t ∧ t.pc = s.pc ∧ SameHostRegisters s t ∧ SameBytes s t

/-- LDA in both modes: the loaded byte, V cleared, N and Z assigned (D23, log entry 18), C, H and I kept, and the frame
(41_load_store.md section 2). -/
def Obligations.LdaLoadsAndAssignsLogicFlags : Prop :=
  ∀ (i : Instr) (data : Byte) (s : State),
    (i = .ldaImm data ∨ ∃ dir8, i = .ldaDir dir8 ∧ data = memRead Config.specDefault s (effectiveAddress dir8)) →
    ∃ t, exec i s = .next t ∧
      t.a = data ∧ LogicFlags Config.specDefault data t ∧
      SameFlags Config.specDefault [.carry, .half, .interrupt] s t ∧ t.pc = s.pc ∧ SameHostRegisters s t ∧ SameBytes s t

/-- STA: the accumulator is stored at the effective address, or nowhere if that is the port-A data register; V cleared, N and Z
from the unchanged accumulator; every byte outside the effective address and everything else as before (41_load_store.md
section 3). -/
def Obligations.StaStoresAndAssignsLogicFlags : Prop :=
  ∀ (dir8 : Byte) (s : State), ∃ t, exec (.staDir dir8) s = .next t ∧
    t.store (effectiveAddress dir8) =
      (if effectiveAddress dir8 = Config.specDefault.portAData then s.store (effectiveAddress dir8) else s.a) ∧
    SameBytesExcept (effectiveAddress dir8) s t ∧
    t.a = s.a ∧ LogicFlags Config.specDefault s.a t ∧
    SameFlags Config.specDefault [.carry, .half, .interrupt] s t ∧ t.pc = s.pc ∧ SameHostRegisters s t

/-- R100: BRA's encoding, its fetch, its target in both of the rule's forms, and its frame. -/
def Obligations.BraBranchesAlways : Prop :=
  (∀ (c : Config) (rel8 : Byte), c.Legal → decode c [c.opcBra, rel8] = .ok (.braRel rel8, [])) ∧
  (∀ s : State, memRead Config.specDefault s s.pc = Config.specDefault.opcBra →
    step s = exec (.braRel (memRead Config.specDefault s (s.pc + 1#16))) { s with pc := s.pc + 2#16 }) ∧
  ∀ (rel8 : Byte) (s : State), ∃ t, exec (.braRel rel8) s = .next t ∧
    t = { s with pc := t.pc } ∧
    (t.pc.toNat : Int) = ((s.pc.toNat : Int) + signed8 rel8) % 65536 ∧
    (rel8.msb = true →
      t.pc.toNat =
        if 256 - rel8.toNat ≤ s.pc.toNat then s.pc.toNat - (256 - rel8.toNat)
        else 65536 - ((256 - rel8.toNat) - s.pc.toNat)) ∧
    (rel8.msb = false →
      t.pc.toNat =
        if s.pc.toNat + rel8.toNat ≤ 65535 then s.pc.toNat + rel8.toNat else s.pc.toNat + rel8.toNat - 65536)

/-- R101: BEQ's encoding, its fetch (the offset byte is read whether or not it branches), and its effect: BRA's with the same
offset when Z is set, nothing when it is clear. -/
def Obligations.BeqBranchesOnZero : Prop :=
  (∀ (c : Config) (rel8 : Byte), c.Legal → decode c [c.opcBeq, rel8] = .ok (.beqRel rel8, [])) ∧
  (∀ s : State, memRead Config.specDefault s s.pc = Config.specDefault.opcBeq →
    step s = exec (.beqRel (memRead Config.specDefault s (s.pc + 1#16))) { s with pc := s.pc + 2#16 }) ∧
  ∀ (rel8 : Byte) (s : State),
    (s.isFlag Config.specDefault .zero = true →
      exec (.beqRel rel8) s = exec (.braRel rel8) s ∧
      ∃ t, exec (.beqRel rel8) s = .next t ∧ t = { s with pc := t.pc } ∧
        (t.pc.toNat : Int) = ((s.pc.toNat : Int) + signed8 rel8) % 65536) ∧
    (s.isFlag Config.specDefault .zero = false → exec (.beqRel rel8) s = .next s)

/-- The five failing encodings stop with the failure the spec names, leaving the state they execute in (60_exceptions.md
sections 1 and 2; the failure names and STA immediate are its decisions D12 and D9, log entries 8 and 10). -/
def Obligations.FailingEncodingsStop : Prop :=
  ∀ (opcode operand : Byte) (s : State),
    exec (.staImm operand) s = .fault (.invalidAddressingMode 0xA7#8 s) ∧
    exec (.badMode opcode) s = .fault (.invalidAddressingMode opcode s) ∧
    exec (.unknownNibble opcode operand) s = .fault (.invalidOpcode opcode s) ∧
    exec (.unknownBranchLow opcode operand) s = .fault (.invalidOpcode opcode s) ∧
    exec (.unknownBranchHigh opcode operand) s = .fault (.invalidOpcode opcode s)

/-- A failing cycle leaves everything but the program counter, which has passed one byte for a bad mode nibble and two
otherwise (30_encoding.md section 4, 60_exceptions.md section 1; the counts are the spec's decision D11, log entry 10). -/
def Obligations.FailingCycleMovesOnlyThePc : Prop :=
  ∀ (s : State) (opcode : Byte), memRead Config.specDefault s s.pc = opcode →
    (0xC0#8 ≤ opcode → step s = .fault (.invalidAddressingMode opcode { s with pc := s.pc + 1#16 })) ∧
    (opcode = 0xA7#8 → step s = .fault (.invalidAddressingMode opcode { s with pc := s.pc + 2#16 })) ∧
    (0xA0#8 ≤ opcode → opcode < 0xC0#8 → insNibble opcode ∉ [0xB#4, 0x4#4, 0x6#4, 0x7#4] →
      step s = .fault (.invalidOpcode opcode { s with pc := s.pc + 2#16 })) ∧
    (opcode < 0xA0#8 → opcode ≠ 0x20#8 → opcode ≠ 0x27#8 →
      step s = .fault (.invalidOpcode opcode { s with pc := s.pc + 2#16 }))

/-- A cycle completes exactly when the opcode byte is one of the nine valid ones, and is never refused (30_encoding.md
section 5, 60_exceptions.md section 1; the default parameters). -/
def Obligations.ExactlyNineOpcodesComplete : Prop :=
  ∀ s : State,
    ((∃ t, step s = .next t) ↔
      memRead Config.specDefault s s.pc ∈
        [0xAB#8, 0xBB#8, 0xA4#8, 0xB4#8, 0xA6#8, 0xB6#8, 0xB7#8, 0x20#8, 0x27#8]) ∧
    ∀ r, step s ≠ .refused r

/-- The step of the model, which decodes and dispatches, is the one block of pseudocode of 30_encoding.md section 1. -/
def Obligations.StepRefinesTheCyclePseudocode : Prop := ∀ s : State, step s = outcomeOf (cycle Config.specDefault s)

/-- Every step, failing or not, keeps the invariant. -/
def Obligations.StepKeepsTheInvariant : Prop :=
  ∀ s : State, s.Inv → (∀ t, step s = .next t → t.Inv) ∧ ∀ r, step s = .fault r → r.after.Inv

/-- Every host request, the step among them, keeps the invariant, for every choice of parameters. -/
def Obligations.EveryRequestKeepsTheInvariant : Prop :=
  ∀ (c : Config) (m : System) (r : Request), m.core.Inv → (serve c m r).2.core.Inv

/-- What a program can never change, however long it runs: SP, HX, the I flag and the unnamed CCR bits, the stored port-A data
byte, and every byte above 0x00FF (41_load_store.md section 3, last rule). -/
def Obligations.ProgramsChangeOnlyTheirOwnState : Prop :=
  ∀ (n : Nat) (s t : State), RunsTo n s t →
    SameHostRegisters s t ∧
    t.ccr &&& ~~~(programFlagBits Config.specDefault) = s.ccr &&& ~~~(programFlagBits Config.specDefault) ∧
    t.store Config.specDefault.portAData = s.store Config.specDefault.portAData ∧
    ∀ addr : Word, 0x00FF#16 < addr → t.store addr = s.store addr

/-- A step changes a stored byte only if it is an STA, and then only the byte at its direct address, which becomes the
accumulator (10_state.md section 5, 20_memory.md section 4). -/
def Obligations.OnlyStaChangesMemory : Prop :=
  ∀ (s t : State) (addr : Word), step s = .next t → t.store addr ≠ s.store addr →
    memRead Config.specDefault s s.pc = 0xB7#8 ∧
      addr = effectiveAddress (memRead Config.specDefault s (s.pc + 1#16)) ∧
      addr ≠ Config.specDefault.portAData ∧ t.store addr = s.a

/-- The program counter after a completed cycle: past the two bytes, plus the signed offset if and only if a branch is taken
(10_state.md section 3). -/
def Obligations.CompletedCycleSetsThePc : Prop :=
  ∀ s t : State, step s = .next t →
    (t.pc.toNat : Int) =
      ((s.pc.toNat : Int) + 2 +
        if memRead Config.specDefault s s.pc = Config.specDefault.opcBra ∨
            (memRead Config.specDefault s s.pc = Config.specDefault.opcBeq ∧
              s.isFlag Config.specDefault .zero = true)
        then signed8 (memRead Config.specDefault s (s.pc + 1#16)) else 0) % 65536

/-- A step changes nothing at all exactly when it is a taken branch to its own opcode byte (42_branch.md section 3,
70_reset_and_hazards.md section 6). -/
def Obligations.OnlyATakenSelfBranchChangesNothing : Prop :=
  ∀ s : State, step s = .next s ↔
    (memRead Config.specDefault s s.pc = Config.specDefault.opcBra ∨
      (memRead Config.specDefault s s.pc = Config.specDefault.opcBeq ∧ s.isFlag Config.specDefault .zero = true)) ∧
    memRead Config.specDefault s (s.pc + 1#16) = 0xFE#8

/-- An ended run stays where it is for ever (70_reset_and_hazards.md section 6; the end of a run is the spec's decision D14, log
entry 12). -/
def Obligations.EndedRunStaysForEver : Prop :=
  ∀ s : State, s.ended Config.specDefault = true → ∀ n : Nat, RunsTo n s s

/-- A failure latches nothing: the step request that fails reports the failure and leaves the program counter one byte on for a bad
mode nibble and two otherwise, everything else as it was; and the next step request runs what the bytes at that advanced program
counter decode to (60_exceptions.md sections 1 and 2; decisions D11 and D13, log entries 10 and 11). -/
def Obligations.NextStepAfterAFailureRunsAtTheAdvancedPc : Prop :=
  ∀ (m : System) (r : Fault), step m.core = .fault r →
    r.opcode = memRead Config.specDefault m.core m.core.pc ∧
    r.after = { m.core with pc := m.core.pc + if 0xC0#8 ≤ r.opcode then 1#16 else 2#16 } ∧
    (∃ result : StepResult, serve Config.specDefault m .step = (.stepped result, { m with core := r.after }) ∧
      outcomeOf (result, r.after) = .fault r) ∧
    ∀ (i : Instr) (rest : List Byte),
      decode Config.specDefault
          [memRead Config.specDefault m.core r.after.pc, memRead Config.specDefault m.core (r.after.pc + 1#16)] = .ok (i, rest) →
        ∃ (result : StepResult) (t : State),
          serve Config.specDefault { m with core := r.after } .step = (.stepped result, { m with core := t }) ∧
          outcomeOf (result, t) =
            exec i { m.core with pc := r.after.pc + BitVec.ofNat 16 (encode Config.specDefault i).length }

/-- No run depends on SP, HX or any CCR bit but Z: two states that agree on A, PC, memory and Z go on agreeing on them, one
completes when the other does, and one fails when the other does (10_state.md sections 4 and 5). -/
def Obligations.RunsReadOnlyAPcMemoryAndZ : Prop :=
  ∀ (n : Nat) (s t : State), AgreeOnInputs Config.specDefault s t →
    (∀ s', RunsTo n s s' → ∃ t', RunsTo n t t' ∧ AgreeOnInputs Config.specDefault s' t') ∧
    (Faulted n s → Faulted n t)

/-- While the direction register is not zero, the stored port-A data byte has no influence on a step: two states that differ in
that byte alone step alike (20_memory.md section 2; the masked value is the spec's decision D6, log entry 5). -/
def Obligations.ClosedGateHidesThePortByte : Prop :=
  ∀ s t : State, s.store Config.specDefault.portADdr ≠ 0x00#8 → AgreeButPort Config.specDefault s t →
    (∀ s', step s = .next s' → ∃ t', step t = .next t' ∧ AgreeButPort Config.specDefault s' t') ∧
    ∀ r, step s = .fault r → ∃ q, step t = .fault q ∧ q.opcode = r.opcode ∧ AgreeButPort Config.specDefault r.after q.after

/-- R20: setFlag writes by OR or AND-NOT with the flag's mask, and changes exactly that one bit. -/
def Obligations.SetFlagChangesExactlyOneBit : Prop :=
  ∀ (c : Config) (s : State) (f : Flag), c.Legal →
    (s.setFlag c f true).ccr = s.ccr ||| c.mask f ∧
    (s.setFlag c f false).ccr = s.ccr &&& ~~~(c.mask f) ∧
    ∀ b : Bool, s.setFlag c f b = { s with ccr := (s.setFlag c f b).ccr } ∧
      (s.setFlag c f b).isFlag c f = b ∧
      (∀ g : Flag, g ≠ f → (s.setFlag c f b).isFlag c g = s.isFlag c g) ∧
      (s.setFlag c f b).ccr &&& ~~~(c.mask f) = s.ccr &&& ~~~(c.mask f) ∧
      (s.setFlag c f b).ccr &&& unnamedBits c = s.ccr &&& unnamedBits c

/-- R15: the three writes of the index register and its views. -/
def Obligations.IndexViewWrites : Prop :=
  ∀ (s : State) (v : Word) (b : Byte),
    (s.h.toNat = s.hx.toNat / 256 ∧ s.x.toNat = s.hx.toNat % 256) ∧
    s.setHX v = { s with hx := v } ∧ (s.setHX v).h = hi8 v ∧ (s.setHX v).x = lo8 v ∧
    s.setH b = { s with hx := joinBytes b s.x } ∧ (s.setH b).h = b ∧ (s.setH b).x = s.x ∧
    s.setX b = { s with hx := joinBytes s.h b } ∧ (s.setX b).x = b ∧ (s.setX b).h = s.h

/-- R16: in every state, and so after every request, HX is H and X joined. -/
def Obligations.IndexAliasAlwaysHolds : Prop :=
  (∀ s : State, s.hx = (s.h.zeroExtend 16 <<< 8) ||| s.x.zeroExtend 16) ∧
  ∀ (c : Config) (m : System) (rs : List Request),
    (serveAll c m rs).core.hx = joinBytes (serveAll c m rs).core.h (serveAll c m rs).core.x

/-- The CPU byte write is silently rejected at the port-A data register, whatever the direction register holds, and writes through
everywhere else; the STA that is rejected completes, flags included (20_memory.md section 2, 41_load_store.md section 3; that N and Z
are assigned is the spec's decision D23, log entry 18). -/
def Obligations.PortADataIsReadOnlyToTheCpu : Prop :=
  ∀ (s : State) (addr : Word) (v : Byte),
    memWrite Config.specDefault s Config.specDefault.portAData v = s ∧
    (addr ≠ Config.specDefault.portAData →
      memWrite Config.specDefault s addr v = { s with mem := (memWrite Config.specDefault s addr v).mem } ∧
      (memWrite Config.specDefault s addr v).store addr = v ∧
      SameBytesExcept addr s (memWrite Config.specDefault s addr v)) ∧
    ∀ dir8 : Byte, effectiveAddress dir8 = Config.specDefault.portAData →
      ∃ t, exec (.staDir dir8) s = .next t ∧ SameBytes s t ∧ t.a = s.a ∧ LogicFlags Config.specDefault s.a t

/-- The gated read of the port-A data register, and the transparent read of every other address (20_memory.md section 2; the
masked value is the spec's decision D6, log entry 5). -/
def Obligations.PortADataReadIsGated : Prop :=
  ∀ s : State,
    (s.store Config.specDefault.portADdr = 0x00#8 →
      memRead Config.specDefault s Config.specDefault.portAData = s.store Config.specDefault.portAData) ∧
    (s.store Config.specDefault.portADdr ≠ 0x00#8 →
      memRead Config.specDefault s Config.specDefault.portAData = 0x00#8) ∧
    ∀ addr : Word, addr ≠ Config.specDefault.portAData → memRead Config.specDefault s addr = s.store addr

/-- PORTA_MASKED_READ for every choice of parameters: a masked read yields the policy's byte and leaves the state, or under `any`
yields a free byte and moves the model's own count on, so that the next masked read draws another; every other read leaves the
state; and at the spec's setting no step and no instruction moves the count (20_memory.md section 2, 00_scope.md section 4,
93_implementation_defined.md part 1; log entries 5 and 26). -/
def Obligations.MaskedReadFollowsThePolicy : Prop :=
  (∀ (c : Config) (s : State),
    (s.store c.portADdr ≠ 0x00#8 →
      (∀ b : Byte, c.maskedRead = .byte b → memRead c s c.portAData = b ∧ afterRead c s c.portAData = s) ∧
      (c.maskedRead = .any →
        memRead c s c.portAData = Config.freeByte s.draws ∧
        afterRead c s c.portAData = { s with draws := s.draws + 1 } ∧
        memRead c (afterRead c s c.portAData) c.portAData = Config.freeByte (s.draws + 1))) ∧
    (s.store c.portADdr = 0x00#8 →
      memRead c s c.portAData = s.store c.portAData ∧ afterRead c s c.portAData = s) ∧
    ∀ addr : Word, addr ≠ c.portAData → afterRead c s addr = s) ∧
  ∀ s : State, (∀ t, step s = .next t → t.draws = s.draws) ∧ ∀ r, step s = .fault r → r.after.draws = s.draws

/-- Under PORTA_MASKED_READ = any an LDA of the masked port runs: the free byte is loaded, V is cleared, N and Z are those of the free
byte, and the draw is counted (41_load_store.md section 2, 93_implementation_defined.md part 1; N and Z assigned: decision D23, log
entry 18; the draw: log entries 5 and 26). -/
def Obligations.LdaOfAMaskedPortDrawsAFreeByte : Prop :=
  ∀ (c : Config) (s : State), c.Legal → c.maskedRead = .any → s.store c.portADdr ≠ 0x00#8 →
    s.pc ≠ c.portAData → s.pc + 1#16 ≠ c.portAData →
    memRead c s s.pc = opcodeM directMode c.lnLda →
    effectiveAddress (memRead c s (s.pc + 1#16)) = c.portAData →
    ∃ t, cycle c s = (.ok, t) ∧
      t.a = Config.freeByte s.draws ∧ LogicFlags c (Config.freeByte s.draws) t ∧
      SameFlags c [.carry, .half, .interrupt] s t ∧ t.pc = s.pc + 2#16 ∧ t.draws = s.draws + 1 ∧
      SameHostRegisters s t ∧ SameBytes s t

/-- A store is seen by the next fetch and by the next read with nothing in between: the byte stored by STA is the instruction
byte fetched there, and a store to the direction register opens or closes the gate at once (20_memory.md sections 4 and 6,
70_reset_and_hazards.md section 4). -/
def Obligations.StoreIsSeenByTheNextFetch : Prop :=
  ∀ (s : State) (dir8 : Byte), effectiveAddress dir8 ≠ Config.specDefault.portAData →
    ∃ t, exec (.staDir dir8) s = .next t ∧
      (fetch8 Config.specDefault { t with pc := effectiveAddress dir8 }).1 = s.a ∧
      (effectiveAddress dir8 = Config.specDefault.portADdr →
        memRead Config.specDefault t Config.specDefault.portAData =
          if s.a = 0x00#8 then s.store Config.specDefault.portAData else 0x00#8)

/-- Fetching one instruction byte reads it through the address space and moves the program counter on by one modulo 65536; the
operand byte is fetched the same way (30_encoding.md section 1, 20_memory.md section 2). The byte of a masked fetch, a free one under
PORTA_MASKED_READ = any, and the count of free draws are the model's choices (log entries 5 and 26). -/
def Obligations.FetchReadsAByteAndAdvances : Prop :=
  ∀ (c : Config) (s : State),
    (fetch8 c s).1 = memRead c s s.pc ∧
    (fetch8 c s).2 = { s with pc := (fetch8 c s).2.pc, draws := (fetch8 c s).2.draws } ∧
    (c.maskedRead ≠ .any → (fetch8 c s).2.draws = s.draws) ∧
    (fetch8 c s).2.pc.toNat = (s.pc.toNat + 1) % 65536 ∧
    (s.pc = c.portAData →
      (fetch8 c s).1 = if s.store c.portADdr = 0x00#8 then s.store c.portAData else maskedByte c s.draws) ∧
    (decodeOneByte (fetch8 c s).1 = none →
      fetchInstr c s =
        (decodeTwoBytes c (fetch8 c s).1 (fetch8 c (fetch8 c s).2).1, (fetch8 c (fetch8 c s).2).2))

/-- The three regions cover the address space with the bounds of 20_memory.md section 1, the port-A registers lie in the first,
and in every region a byte written is read back and nothing else is changed, but for the port-A data register. -/
def Obligations.RegionsAreAlikeButForThePort : Prop :=
  (∀ addr : Word,
    (regionOf addr = .hardware ↔ addr.toNat ≤ 0x007F) ∧
    (regionOf addr = .ram ↔ 0x0080 ≤ addr.toNat ∧ addr.toNat ≤ 0x107F) ∧
    (regionOf addr = .rom ↔ 0x1080 ≤ addr.toNat)) ∧
  (∀ c : Config, c.Legal → regionOf c.portAData = .hardware ∧ regionOf c.portADdr = .hardware) ∧
  ∀ (s : State) (addr : Word) (v : Byte), addr ≠ Config.specDefault.portAData →
    memRead Config.specDefault (memWrite Config.specDefault s addr v) addr = v ∧
    ∀ b : Word, b ≠ addr → (memWrite Config.specDefault s addr v).store b = s.store b

/-- R103: the round trip of the branch arithmetic, for every integer displacement and for every offset a branch can encode. -/
def Obligations.BranchArithmeticRoundTrips : Prop :=
  (∀ (p : Word) (n : Int), (((p.toNat : Int) + n) % 65536 - n) % 65536 = p.toNat) ∧
  (∀ (n : Nat) (s : State), 1 ≤ n → n ≤ 127 →
    signed8 (BitVec.ofNat 8 n) = n ∧ signed8 (BitVec.ofNat 8 (256 - n)) = -(n : Int) ∧
    branch (BitVec.ofNat 8 (256 - n)) (branch (BitVec.ofNat 8 n) s) = s) ∧
  signed8 0x80#8 = -128 ∧
  ∀ (n : Nat) (rel8 : Byte), 128 ≤ n → n ≤ 255 → signed8 rel8 ≠ n

/-- The signed verdict of ADD is the exact signed sum leaving -128 to 127, the unsigned one the exact sum leaving 0 to 255, and
the half carry is bit 4 of the exclusive or of the operands and the result (40_arithmetic_logic.md sections 2 and 4). -/
def Obligations.AddVerdictsAreThoseOfTheExactSums : Prop :=
  ∀ a data : Byte,
    (addOverflow a data = true ↔ signed8 a + signed8 data < -128 ∨ 127 < signed8 a + signed8 data) ∧
    (addCarry a data = true ↔ (a + data).toNat ≠ a.toNat + data.toNat) ∧
    (addHalf a data = true ↔ (a ^^^ data ^^^ (a + data)) &&& 0x10#8 ≠ 0x00#8)

/-- A host word access is big-endian, reads back what it wrote, and is no move at 0xFFFF (20_memory.md section 3,
93_implementation_defined.md U6). -/
def Obligations.WordAccessIsBigEndian : Prop :=
  (∀ (s : State) (v : Word), hostReadWord Config.specDefault s 0xFFFF#16 = none ∧
    hostWriteWord Config.specDefault s 0xFFFF#16 v = none) ∧
  ∀ (s : State) (addr v : Word), addr ≠ 0xFFFF#16 → addr ≠ Config.specDefault.portAData →
    ∃ t, hostWriteWord Config.specDefault s addr v = some t ∧
      t.store addr = hi8 v ∧ t.store (addr + 1#16) = lo8 v ∧
      (∀ b : Word, b ≠ addr → b ≠ addr + 1#16 → t.store b = s.store b) ∧
      hostReadWord Config.specDefault t addr = some v

/-- A host byte access out of range reads 0x00 and writes nothing, and in range it is the access of the engine (20_memory.md
sections 2 and 7). -/
def Obligations.HostByteAccessToleratesAnyAddress : Prop :=
  ∀ (c : Config) (s : State) (v : Byte),
    (∀ addr : Int, addr < 0 ∨ 65536 ≤ addr → hostReadByte c s addr = 0x00#8 ∧ hostWriteByte c s addr v = s) ∧
    ∀ addr : Word, hostReadByte c s addr.toNat = memRead c s addr ∧ hostWriteByte c s addr.toNat v = memWrite c s addr v

/-- Loading a record: each byte lands at its address if all fit, nothing else changes; if they do not fit, OutOfBounds is
reported and the bytes that fit stay written (20_memory.md section 7; straight into memory, decision D19, log entry 20). -/
def Obligations.LoadWritesTheRecord : Prop :=
  ∀ (r : Record) (s : State), ∃ t,
    loadRecords [r] s = (decide (r.address.toNat + r.data.length ≤ 65536 ∨ r.data = []), t) ∧
    t = { s with mem := t.mem } ∧
    (∀ (k : Nat) (b : Byte), r.data[k]? = some b → r.address.toNat + k < 65536 →
      t.store (BitVec.ofNat 16 (r.address.toNat + k)) = b) ∧
    ∀ addr : Word, addr.toNat < r.address.toNat ∨ r.address.toNat + r.data.length ≤ addr.toNat →
      t.store addr = s.store addr

/-- A launch that succeeds starts its first step with the program counter at the entry address, every other register zero, and
memory equal to the image over zeros; the image is retained (70_reset_and_hazards.md section 2; decision D15, log entry 15). -/
def Obligations.LaunchStartsAtTheEntryAddress : Prop :=
  ∀ (c : Config) (image : Image) (m m' : System), launch c image m = (.done, m') →
    m'.core.pc = image.entry ∧ m'.core.a = 0x00#8 ∧ m'.core.sp = 0x0000#16 ∧ m'.core.hx = 0x0000#16 ∧
    m'.core.ccr = 0x00#8 ∧ m'.core.mem = (loadRecords image.records State.reset).2.mem ∧ m'.retained = some image

/-- After a successful launch, whatever is stepped, reset, read or written in between, reset and reload together bring back the
state of the launch; the count of free draws, the model's own, is kept, and is as it was unless PORTA_MASKED_READ is `any`
(70_reset_and_hazards.md sections 1 and 2; log entry 26). -/
def Obligations.ResetAndReloadRestoreTheLaunch : Prop :=
  ∀ (c : Config) (image : Image) (m m' : System) (rs : List Request), launch c image m = (.done, m') →
    (∀ r ∈ rs, ∀ other, r ≠ .load other) →
      (∃ draws : Nat,
        serveAll c m' (rs ++ [.reset, .reload]) = { m' with core := { m'.core with draws := draws } }) ∧
      (c.maskedRead ≠ .any → serveAll c m' (rs ++ [.reset, .reload]) = m')

/-- setHardwareInputBit writes one bit of the stored port-A data byte, past the CPU-side rejection; the four names have four
positions (20_memory.md section 7; "toggles" is the spec's decision D27, log entry 20; the positions are free, log entry 6). -/
def Obligations.InputBitWritesOnePortBit : Prop :=
  ∀ (c : Config) (s : State) (name : InputBit) (value : Bool),
    setHardwareInputBit c name value s = { s with mem := (setHardwareInputBit c name value s).mem } ∧
    (∀ k, k < 8 → ((setHardwareInputBit c name value s).store c.portAData).getLsbD k =
      if k = (c.inputPosition name).val then value else (s.store c.portAData).getLsbD k) ∧
    SameBytesExcept c.portAData s (setHardwareInputBit c name value s) ∧
    ∀ other : InputBit, c.inputPosition other = c.inputPosition name → other = name

/-- A host register write stores the value at the register's width and reads back so, and changes no byte of memory
(10_state.md section 6; wider values are the spec's decision D16, log entry 20). -/
def Obligations.HostRegisterWriteTruncates : Prop :=
  ∀ (s : State) (r : Register) (v : Nat),
    (s.writeRegister r v).readRegister r =
      v % (match r with | .pc | .sp | .hx => 65536 | .a | .h | .x | .ccr => 256) ∧
    SameBytes s (s.writeRegister r v) ∧
    (s.writeRegister .ccr v).ccr = BitVec.ofNat 8 v ∧
    ∀ file : RegisterFile, (s.setRegisterFile file).registerFile = file ∧ SameBytes s (s.setRegisterFile file)

/-- The stored port-A data byte changes by a reset, a load, a reload or an input bit, and by no other request: not by a step
and not by a host byte or word write (20_memory.md sections 2 and 7, decisions D19 and D25). -/
def Obligations.OnlyHostInputsChangeThePortByte : Prop :=
  ∀ (c : Config) (m : System) (r : Request),
    (serve c m r).2.core.store c.portAData ≠ m.core.store c.portAData →
      r = .reset ∨ r = .reload ∨ (∃ image, r = .load image) ∨ ∃ name value, r = .setHardwareInputBit name value

/-- An assembled branch goes to the target it was written for (30_encoding.md section 6). -/
def Obligations.AssembledBranchReachesItsTarget : Prop :=
  ∀ (s : State) (target : Word) (rel8 : Byte), branchOffset s.pc target = some rel8 →
    memRead Config.specDefault s s.pc = Config.specDefault.opcBra →
    memRead Config.specDefault s (s.pc + 1#16) = rel8 → step s = .next { s with pc := target }

/-- The model's own placing of an instruction (log entry 16): what is placed is what the next step fetches and runs. -/
def Obligations.PlacedInstructionIsFetched : Prop :=
  ∀ (s : State) (opcode operand : Byte), ∃ placed : State,
    placed = s.placeForFetch Config.specDefault opcode operand ∧
    memRead Config.specDefault placed placed.pc = opcode ∧
    memRead Config.specDefault placed (placed.pc + 1#16) = operand ∧
    placed = { s with mem := placed.mem } ∧
    ∀ addr : Word, addr ≠ s.pc → addr ≠ s.pc + 1#16 → addr ≠ Config.specDefault.portADdr → placed.store addr = s.store addr

/-- A record that validates has a recognised type, a true count and a true checksum (70_reset_and_hazards.md section 3). -/
def Obligations.ValidRecordHasTrueCountAndChecksum : Prop :=
  ∀ (segment : List Char) (type : RecordType) (body : List Byte), validateRecord segment = some (type, body) →
    ∃ (digit : Char) (rest : List Char) (count sum : Byte), segment = digit :: rest ∧ recordType digit = some type ∧
      hexBytes rest = some (count :: (body ++ [sum])) ∧ count.toNat = body.length + 1 ∧
      (count :: (body ++ [sum])).sum = 0xFF#8

/-- One bad record and nothing is loaded: no payload, no entry address, no launch (70_reset_and_hazards.md section 3,
60_exceptions.md section 1). That no launch means no reset either is the model's choice (log entry 28). -/
def Obligations.OneBadRecordAbortsTheLoad : Prop :=
  ∀ (c : Config) (text : List Char) (m : System) (segment : List Char),
    segment ∈ recordSegments text → validateRecord segment = none →
      parseRecords text = ⟨none, []⟩ ∧ launchText c text m = none
end

