-- ==== Sys2Proof/Laws/Decode.lean ====
section
/-! SUPPORT. The laws of the fields of an opcode byte (R63, R65, R66): what the two nibbles say about the byte and the byte
about them. -/

namespace Sys2Proof

theorem opcodeM_nibbles (opcode : Byte) : opcodeM (modeNibble opcode) (insNibble opcode) = opcode := by
  revert opcode
  decide

@[simp] theorem modeNibble_opcodeM (mode ins : BitVec 4) : modeNibble (opcodeM mode ins) = mode := by
  revert mode ins
  decide

@[simp] theorem insNibble_opcodeM (mode ins : BitVec 4) : insNibble (opcodeM mode ins) = ins := by
  revert mode ins
  decide

theorem modeNibble_eq_immediate (opcode : Byte) : modeNibble opcode = immediateMode ↔ 0xA0#8 ≤ opcode ∧ opcode < 0xB0#8 := by
  revert opcode
  decide

theorem modeNibble_eq_direct (opcode : Byte) : modeNibble opcode = directMode ↔ 0xB0#8 ≤ opcode ∧ opcode < 0xC0#8 := by
  revert opcode
  decide

theorem directMode_ne_immediateMode : directMode ≠ immediateMode := by decide

/-- The one-byte encoding is exactly the opcode bytes 0xC0 to 0xFF (R72). -/
theorem decodeOneByte_eq (opcode : Byte) : decodeOneByte opcode = if 0xC0#8 ≤ opcode then some (.badMode opcode) else none := by
  revert opcode
  decide

/-- A branch-class opcode byte is not mode-bearing and is not one byte long (R65). -/
theorem branchClass_opcode {opcode : Byte} (h : opcode ≤ 0x9F#8) : decodeOneByte opcode = none ∧ isModeBearing opcode = false := by
  revert opcode
  decide

@[simp] theorem decodeOneByte_opcodeM_immediate (ins : BitVec 4) : decodeOneByte (opcodeM immediateMode ins) = none := by
  revert ins
  decide

@[simp] theorem decodeOneByte_opcodeM_direct (ins : BitVec 4) : decodeOneByte (opcodeM directMode ins) = none := by
  revert ins
  decide

@[simp] theorem isModeBearing_opcodeM_immediate (ins : BitVec 4) : isModeBearing (opcodeM immediateMode ins) = true := by
  revert ins
  decide

@[simp] theorem isModeBearing_opcodeM_direct (ins : BitVec 4) : isModeBearing (opcodeM directMode ins) = true := by
  revert ins
  decide

end Sys2Proof
end

