-- ==== Sys2Proof/Laws/State.lean ====
section
/-! SUPPORT. What each state update leaves in each field, by rfl, so that no later proof unfolds a record update. -/

namespace Sys2Proof.Machine

@[simp] theorem setStore_a (s : State) (addr : Word) (v : Byte) : (s.setStore addr v).a = s.a := rfl
@[simp] theorem setStore_pc (s : State) (addr : Word) (v : Byte) : (s.setStore addr v).pc = s.pc := rfl
@[simp] theorem setStore_sp (s : State) (addr : Word) (v : Byte) : (s.setStore addr v).sp = s.sp := rfl
@[simp] theorem setStore_hx (s : State) (addr : Word) (v : Byte) : (s.setStore addr v).hx = s.hx := rfl
@[simp] theorem setStore_ccr (s : State) (addr : Word) (v : Byte) : (s.setStore addr v).ccr = s.ccr := rfl
@[simp] theorem setStore_mem (s : State) (addr : Word) (v : Byte) : (s.setStore addr v).mem = s.mem.set addr.toNat v := rfl
@[simp] theorem setStore_draws (s : State) (addr : Word) (v : Byte) : (s.setStore addr v).draws = s.draws := rfl

@[simp] theorem setFlag_a (c : Config) (s : State) (f : Flag) (b : Bool) : (s.setFlag c f b).a = s.a := rfl
@[simp] theorem setFlag_pc (c : Config) (s : State) (f : Flag) (b : Bool) : (s.setFlag c f b).pc = s.pc := rfl
@[simp] theorem setFlag_sp (c : Config) (s : State) (f : Flag) (b : Bool) : (s.setFlag c f b).sp = s.sp := rfl
@[simp] theorem setFlag_hx (c : Config) (s : State) (f : Flag) (b : Bool) : (s.setFlag c f b).hx = s.hx := rfl
@[simp] theorem setFlag_ccr (c : Config) (s : State) (f : Flag) (b : Bool) : (s.setFlag c f b).ccr = ccrSetFlag c s.ccr f b := rfl
@[simp] theorem setFlag_mem (c : Config) (s : State) (f : Flag) (b : Bool) : (s.setFlag c f b).mem = s.mem := rfl
@[simp] theorem setFlag_draws (c : Config) (s : State) (f : Flag) (b : Bool) : (s.setFlag c f b).draws = s.draws := rfl

@[simp] theorem setHX_a (s : State) (v : Word) : (s.setHX v).a = s.a := rfl
@[simp] theorem setHX_pc (s : State) (v : Word) : (s.setHX v).pc = s.pc := rfl
@[simp] theorem setHX_sp (s : State) (v : Word) : (s.setHX v).sp = s.sp := rfl
@[simp] theorem setHX_hx (s : State) (v : Word) : (s.setHX v).hx = v := rfl
@[simp] theorem setHX_ccr (s : State) (v : Word) : (s.setHX v).ccr = s.ccr := rfl
@[simp] theorem setHX_mem (s : State) (v : Word) : (s.setHX v).mem = s.mem := rfl
@[simp] theorem setHX_draws (s : State) (v : Word) : (s.setHX v).draws = s.draws := rfl

@[simp] theorem setH_a (s : State) (b : Byte) : (s.setH b).a = s.a := rfl
@[simp] theorem setH_pc (s : State) (b : Byte) : (s.setH b).pc = s.pc := rfl
@[simp] theorem setH_sp (s : State) (b : Byte) : (s.setH b).sp = s.sp := rfl
@[simp] theorem setH_hx (s : State) (b : Byte) : (s.setH b).hx = joinBytes b s.x := rfl
@[simp] theorem setH_ccr (s : State) (b : Byte) : (s.setH b).ccr = s.ccr := rfl
@[simp] theorem setH_mem (s : State) (b : Byte) : (s.setH b).mem = s.mem := rfl
@[simp] theorem setH_draws (s : State) (b : Byte) : (s.setH b).draws = s.draws := rfl

@[simp] theorem setX_a (s : State) (b : Byte) : (s.setX b).a = s.a := rfl
@[simp] theorem setX_pc (s : State) (b : Byte) : (s.setX b).pc = s.pc := rfl
@[simp] theorem setX_sp (s : State) (b : Byte) : (s.setX b).sp = s.sp := rfl
@[simp] theorem setX_hx (s : State) (b : Byte) : (s.setX b).hx = joinBytes s.h b := rfl
@[simp] theorem setX_ccr (s : State) (b : Byte) : (s.setX b).ccr = s.ccr := rfl
@[simp] theorem setX_mem (s : State) (b : Byte) : (s.setX b).mem = s.mem := rfl
@[simp] theorem setX_draws (s : State) (b : Byte) : (s.setX b).draws = s.draws := rfl

/-- Everything that the state after a read can be (R34, R43): the state before it, but for the model's own count of draws. -/
theorem afterRead_eq (c : Config) (s : State) (addr : Word) :
    afterRead c s addr = { s with draws := (afterRead c s addr).draws } := by
  unfold afterRead
  split <;> rfl

@[simp] theorem afterRead_a (c : Config) (s : State) (addr : Word) : (afterRead c s addr).a = s.a := by rw [afterRead_eq]
@[simp] theorem afterRead_pc (c : Config) (s : State) (addr : Word) : (afterRead c s addr).pc = s.pc := by rw [afterRead_eq]
@[simp] theorem afterRead_sp (c : Config) (s : State) (addr : Word) : (afterRead c s addr).sp = s.sp := by rw [afterRead_eq]
@[simp] theorem afterRead_hx (c : Config) (s : State) (addr : Word) : (afterRead c s addr).hx = s.hx := by rw [afterRead_eq]
@[simp] theorem afterRead_ccr (c : Config) (s : State) (addr : Word) : (afterRead c s addr).ccr = s.ccr := by rw [afterRead_eq]
@[simp] theorem afterRead_mem (c : Config) (s : State) (addr : Word) : (afterRead c s addr).mem = s.mem := by rw [afterRead_eq]

/-- A read leaves the whole state as it was unless the policy is `any` (R43). -/
theorem afterRead_of_ne_any {c : Config} (h : c.maskedRead ≠ .any) (s : State) (addr : Word) : afterRead c s addr = s := by
  simp [afterRead, drawsFreeByte, h]

/-- At the spec's setting of PORTA_MASKED_READ a read leaves the whole state as it was (R43). -/
@[simp] theorem afterRead_specDefault (s : State) (addr : Word) : afterRead Config.specDefault s addr = s := rfl

@[simp] theorem operandAfterRead_mem (c : Config) (s : State) (operand : Operand) : (operand.afterRead c s).mem = s.mem := by
  cases operand <;> simp [Operand.afterRead]

/-- At the spec's setting of PORTA_MASKED_READ reading the data leaves the whole state as it was (R43). -/
@[simp] theorem operandAfterRead_specDefault (s : State) (operand : Operand) :
    operand.afterRead Config.specDefault s = s := by
  cases operand <;> rfl

@[simp] theorem fetch8_draws (c : Config) (s : State) : (fetch8 c s).2.draws = (afterRead c s s.pc).draws := rfl
@[simp] theorem fetch8_a (c : Config) (s : State) : (fetch8 c s).2.a = s.a := by simp [fetch8]
@[simp] theorem fetch8_pc (c : Config) (s : State) : (fetch8 c s).2.pc = s.pc + 1#16 := rfl
@[simp] theorem fetch8_sp (c : Config) (s : State) : (fetch8 c s).2.sp = s.sp := by simp [fetch8]
@[simp] theorem fetch8_hx (c : Config) (s : State) : (fetch8 c s).2.hx = s.hx := by simp [fetch8]
@[simp] theorem fetch8_ccr (c : Config) (s : State) : (fetch8 c s).2.ccr = s.ccr := by simp [fetch8]
@[simp] theorem fetch8_mem (c : Config) (s : State) : (fetch8 c s).2.mem = s.mem := by simp [fetch8]

@[simp] theorem setNZ_a (c : Config) (v : Byte) (s : State) : (setNZ c v s).a = s.a := rfl
@[simp] theorem setNZ_pc (c : Config) (v : Byte) (s : State) : (setNZ c v s).pc = s.pc := rfl
@[simp] theorem setNZ_sp (c : Config) (v : Byte) (s : State) : (setNZ c v s).sp = s.sp := rfl
@[simp] theorem setNZ_hx (c : Config) (v : Byte) (s : State) : (setNZ c v s).hx = s.hx := rfl
@[simp] theorem setNZ_ccr (c : Config) (v : Byte) (s : State) : (setNZ c v s).ccr = ccrSetFlag c (ccrSetFlag c s.ccr .negative v.msb) .zero (v == 0x00#8) := rfl
@[simp] theorem setNZ_mem (c : Config) (v : Byte) (s : State) : (setNZ c v s).mem = s.mem := rfl
@[simp] theorem setNZ_draws (c : Config) (v : Byte) (s : State) : (setNZ c v s).draws = s.draws := rfl

@[simp] theorem aluAdd_a (c : Config) (data : Byte) (s : State) : (aluAdd c data s).a = s.a + data := rfl
@[simp] theorem aluAdd_pc (c : Config) (data : Byte) (s : State) : (aluAdd c data s).pc = s.pc := rfl
@[simp] theorem aluAdd_sp (c : Config) (data : Byte) (s : State) : (aluAdd c data s).sp = s.sp := rfl
@[simp] theorem aluAdd_hx (c : Config) (data : Byte) (s : State) : (aluAdd c data s).hx = s.hx := rfl
@[simp] theorem aluAdd_mem (c : Config) (data : Byte) (s : State) : (aluAdd c data s).mem = s.mem := rfl
@[simp] theorem aluAdd_draws (c : Config) (data : Byte) (s : State) : (aluAdd c data s).draws = s.draws := rfl

@[simp] theorem aluAnd_a (c : Config) (data : Byte) (s : State) : (aluAnd c data s).a = s.a &&& data := rfl
@[simp] theorem aluAnd_pc (c : Config) (data : Byte) (s : State) : (aluAnd c data s).pc = s.pc := rfl
@[simp] theorem aluAnd_sp (c : Config) (data : Byte) (s : State) : (aluAnd c data s).sp = s.sp := rfl
@[simp] theorem aluAnd_hx (c : Config) (data : Byte) (s : State) : (aluAnd c data s).hx = s.hx := rfl
@[simp] theorem aluAnd_mem (c : Config) (data : Byte) (s : State) : (aluAnd c data s).mem = s.mem := rfl
@[simp] theorem aluAnd_draws (c : Config) (data : Byte) (s : State) : (aluAnd c data s).draws = s.draws := rfl

@[simp] theorem loadAcc_a (c : Config) (data : Byte) (s : State) : (loadAcc c data s).a = data := rfl
@[simp] theorem loadAcc_pc (c : Config) (data : Byte) (s : State) : (loadAcc c data s).pc = s.pc := rfl
@[simp] theorem loadAcc_sp (c : Config) (data : Byte) (s : State) : (loadAcc c data s).sp = s.sp := rfl
@[simp] theorem loadAcc_hx (c : Config) (data : Byte) (s : State) : (loadAcc c data s).hx = s.hx := rfl
@[simp] theorem loadAcc_mem (c : Config) (data : Byte) (s : State) : (loadAcc c data s).mem = s.mem := rfl
@[simp] theorem loadAcc_draws (c : Config) (data : Byte) (s : State) : (loadAcc c data s).draws = s.draws := rfl

@[simp] theorem branch_a (rel8 : Byte) (s : State) : (branch rel8 s).a = s.a := rfl
@[simp] theorem branch_pc (rel8 : Byte) (s : State) : (branch rel8 s).pc = s.pc + sext16 rel8 := rfl
@[simp] theorem branch_sp (rel8 : Byte) (s : State) : (branch rel8 s).sp = s.sp := rfl
@[simp] theorem branch_hx (rel8 : Byte) (s : State) : (branch rel8 s).hx = s.hx := rfl
@[simp] theorem branch_ccr (rel8 : Byte) (s : State) : (branch rel8 s).ccr = s.ccr := rfl
@[simp] theorem branch_mem (rel8 : Byte) (s : State) : (branch rel8 s).mem = s.mem := rfl
@[simp] theorem branch_draws (rel8 : Byte) (s : State) : (branch rel8 s).draws = s.draws := rfl

/-- The condition codes of ADD, as the five assignments of R80. -/
@[simp] theorem aluAdd_ccr (c : Config) (data : Byte) (s : State) :
    (aluAdd c data s).ccr =
      ccrSetFlag c (ccrSetFlag c (ccrSetFlag c (ccrSetFlag c (ccrSetFlag c s.ccr .overflow (addOverflow s.a data)) .half
        (addHalf s.a data)) .negative (s.a + data).msb) .zero (s.a + data == 0x00#8)) .carry (addCarry s.a data) := rfl

/-- The condition codes of AND (R81): V cleared, then SetNZ. -/
@[simp] theorem aluAnd_ccr (c : Config) (data : Byte) (s : State) :
    (aluAnd c data s).ccr =
      ccrSetFlag c (ccrSetFlag c (ccrSetFlag c s.ccr .overflow false) .negative (s.a &&& data).msb) .zero
        (s.a &&& data == 0x00#8) := rfl

/-- The condition codes of LDA (R90): V cleared, then SetNZ. -/
@[simp] theorem loadAcc_ccr (c : Config) (data : Byte) (s : State) :
    (loadAcc c data s).ccr =
      ccrSetFlag c (ccrSetFlag c (ccrSetFlag c s.ccr .overflow false) .negative data.msb) .zero (data == 0x00#8) := rfl

end Sys2Proof.Machine
end

