-- ==== Sys2Proof/Laws/Flags.lean ====
section
/-! SUPPORT. The laws of isFlag and setFlag under a legal choice of masks (R5, R18, R20), and the spec's default choice. -/

namespace Sys2Proof.Machine

/-- The default parameters meet the constraints of R4 to R6. -/
theorem specDefault_legal : Config.specDefault.Legal where
  add_ne_and := by decide
  add_ne_lda := by decide
  add_ne_sta := by decide
  and_ne_lda := by decide
  and_ne_sta := by decide
  lda_ne_sta := by decide
  bra_ne_beq := by decide
  bra_branch_class := by decide
  beq_branch_class := by decide
  mask_one_bit f := by
    cases f
    · exact ⟨0, by decide, rfl⟩
    · exact ⟨1, by decide, rfl⟩
    · exact ⟨2, by decide, rfl⟩
    · exact ⟨3, by decide, rfl⟩
    · exact ⟨4, by decide, rfl⟩
    · exact ⟨7, by decide, rfl⟩
  mask_distinct f g h := by cases f <;> cases g <;> first | rfl | exact absurd h (by decide)
  data_in_hardware := by decide
  ddr_in_hardware := by decide
  data_ne_ddr := by decide

theorem ccrFlag_iff_getLsbD {c : Config} {f : Flag} {i : Nat} (hi : i < 8) (hf : c.mask f = BitVec.twoPow 8 i) (ccr : Byte) :
    ccrFlag c ccr f = ccr.getLsbD i := by
  rw [ccrFlag, hf, BitVec.and_twoPow]
  cases h : ccr.getLsbD i
  · simp
  · have hne : BitVec.twoPow 8 i ≠ 0x00#8 := fun he => by
      have := congrArg (fun v => v.getLsbD i) he
      simp [hi] at this
    simpa using hne

theorem ccrSetFlag_getLsbD {c : Config} {f : Flag} {i : Nat} (hf : c.mask f = BitVec.twoPow 8 i) (ccr : Byte) (b : Bool)
    {j : Nat} (hj : j < 8) : (ccrSetFlag c ccr f b).getLsbD j = if j = i then b else ccr.getLsbD j := by
  rw [ccrSetFlag, hf]
  by_cases hji : j = i
  · subst hji
    cases b <;> simp [hj]
  · cases b <;> simp [hj, hji]

/-- Reading a flag after writing one: the one written has the value written, every other is as it was (R20). -/
theorem ccrFlag_ccrSetFlag {c : Config} (hc : c.Legal) (ccr : Byte) (f g : Flag) (b : Bool) :
    ccrFlag c (ccrSetFlag c ccr f b) g = if g = f then b else ccrFlag c ccr g := by
  obtain ⟨i, hi, hf⟩ := hc.mask_one_bit f
  obtain ⟨j, hj, hg⟩ := hc.mask_one_bit g
  rw [ccrFlag_iff_getLsbD hj hg, ccrFlag_iff_getLsbD hj hg, ccrSetFlag_getLsbD hf _ _ hj]
  by_cases hfg : g = f
  · subst hfg
    have hij : j = i := by
      have h2 : BitVec.twoPow 8 j = BitVec.twoPow 8 i := hg.symm.trans hf
      have h3 := congrArg (fun v => v.getLsbD j) h2
      simp [hj] at h3
      exact h3
    simp [hij]
  · have hij : j ≠ i := fun h => hfg (hc.mask_distinct g f (by rw [hg, hf, h]))
    simp [hfg, hij]

/-- Writing a flag leaves every bit outside its mask as it was (R20). -/
theorem ccrSetFlag_and_not_mask (c : Config) (ccr : Byte) (f : Flag) (b : Bool) :
    ccrSetFlag c ccr f b &&& ~~~(c.mask f) = ccr &&& ~~~(c.mask f) := by
  unfold ccrSetFlag
  cases b
  · ext i
    simp
  · ext i
    simp only [if_true, BitVec.getElem_and, BitVec.getElem_or, BitVec.getElem_not]
    cases ccr[i] <;> cases (c.mask f)[i] <;> rfl

/-- Writing a flag leaves every group of bits that its mask does not meet as it was. -/
theorem ccrSetFlag_and_disjoint {c : Config} {f : Flag} {m : Byte} (h : m &&& c.mask f = 0x00#8) (ccr : Byte) (b : Bool) :
    ccrSetFlag c ccr f b &&& m = ccr &&& m := by
  ext i hi
  have hbit : (m &&& c.mask f)[i] = false := by simp [h]
  rw [BitVec.getElem_and] at hbit
  unfold ccrSetFlag
  cases b
  · simp only [Bool.false_eq_true, if_false, BitVec.getElem_and, BitVec.getElem_not]
    cases hm : m[i] <;> cases hf : (c.mask f)[i] <;> simp_all
  · simp only [if_true, BitVec.getElem_and, BitVec.getElem_or]
    cases hm : m[i] <;> cases hf : (c.mask f)[i] <;> simp_all

/-- No flag's mask meets the unnamed bits (R21). -/
theorem unnamedBits_and_mask (c : Config) (f : Flag) : unnamedBits c &&& c.mask f = 0x00#8 := by
  unfold unnamedBits
  ext i
  cases f <;> simp [Config.mask] <;> tauto

/-- Writing a flag leaves the unnamed bits as they were (R21). -/
@[simp] theorem ccrSetFlag_and_unnamedBits (c : Config) (ccr : Byte) (f : Flag) (b : Bool) :
    ccrSetFlag c ccr f b &&& unnamedBits c = ccr &&& unnamedBits c :=
  ccrSetFlag_and_disjoint (unnamedBits_and_mask c f) _ _

/-- Reading a flag of a state after writing one (R20). -/
theorem isFlag_setFlag {c : Config} (hc : c.Legal) (s : State) (f g : Flag) (b : Bool) :
    (s.setFlag c f b).isFlag c g = if g = f then b else s.isFlag c g :=
  ccrFlag_ccrSetFlag hc s.ccr f g b

/-- isFlag looks at the condition codes alone. -/
theorem isFlag_eq (c : Config) (s : State) (f : Flag) : s.isFlag c f = ccrFlag c s.ccr f := rfl

end Sys2Proof.Machine
end

