-- ==== Sys2Proof/Laws/Memory.lean ====
section
/-! SUPPORT. The laws of the memory list and of the byte accesses over it: read after write, the canonical form, and what the
port-A gate and rejection do (R30, R34, R36). -/

namespace Sys2Proof.Machine

theorem memory_get_insertCell_same (a : Nat) (v : Byte) (m : Memory) (h : ∀ cell ∈ m, cell.1 ≠ a) :
    (Memory.insertCell a v m).get a = v := by
  induction m with
  | nil => simp [Memory.insertCell, Memory.get]
  | cons cell m ih =>
    have hcell : cell.1 ≠ a := h cell (by simp)
    have hrest : ∀ p ∈ m, p.1 ≠ a := fun p hp => h p (by simp [hp])
    unfold Memory.insertCell
    split
    · simp [Memory.get]
    · simp [Memory.get, hcell, ih hrest]

theorem memory_get_insertCell_other {a b : Nat} (v : Byte) (m : Memory) (hab : b ≠ a) :
    (Memory.insertCell a v m).get b = m.get b := by
  induction m with
  | nil => simp [Memory.insertCell, Memory.get, hab.symm]
  | cons cell m ih =>
    unfold Memory.insertCell
    split
    · simp [Memory.get, hab.symm]
    · simp [Memory.get, ih]

theorem memory_get_filter_same (a : Nat) (m : Memory) :
    Memory.get (m.filter fun cell => cell.1 != a) a = Memory.unlisted := by
  induction m with
  | nil => rfl
  | cons cell m ih =>
    by_cases h : cell.1 = a
    · simpa [h] using ih
    · simp [h, Memory.get, ih]

theorem memory_get_filter_other {a b : Nat} (m : Memory) (hab : b ≠ a) :
    Memory.get (m.filter fun cell => cell.1 != a) b = m.get b := by
  induction m with
  | nil => rfl
  | cons cell m ih =>
    by_cases h : cell.1 = a
    · simp [h, Memory.get, hab.symm, ih]
    · simp [h, Memory.get, ih]

/-- Read after write at one address, in every memory, canonical or not. -/
@[simp] theorem memory_get_set_same (m : Memory) (a : Nat) (v : Byte) : (m.set a v).get a = v := by
  unfold Memory.set
  split
  · rename_i hv
    rw [memory_get_filter_same, hv]
  · apply memory_get_insertCell_same
    simp

/-- A write leaves every other address as it was. -/
theorem memory_get_set_other {a b : Nat} (m : Memory) (v : Byte) (hab : b ≠ a) : (m.set a v).get b = m.get b := by
  unfold Memory.set
  split
  · exact memory_get_filter_other m hab
  · rw [memory_get_insertCell_other v _ hab, memory_get_filter_other m hab]

theorem memory_mem_insertCell {a : Nat} {v : Byte} {m : Memory} {p : Host.Cell} :
    p ∈ Memory.insertCell a v m ↔ p = (a, v) ∨ p ∈ m := by
  induction m with
  | nil => simp [Memory.insertCell]
  | cons cell m ih =>
    unfold Memory.insertCell
    split
    · simp
    · simp only [List.mem_cons, ih]
      tauto

theorem memory_insertCell_sorted {a : Nat} {v : Byte} {m : Memory} (hm : m.Pairwise fun p q => p.1 < q.1)
    (ha : ∀ cell ∈ m, cell.1 ≠ a) : (Memory.insertCell a v m).Pairwise fun p q => p.1 < q.1 := by
  induction m with
  | nil => simp [Memory.insertCell]
  | cons cell m ih =>
    have hcell : cell.1 ≠ a := ha cell (by simp)
    obtain ⟨hhead, htail⟩ := List.pairwise_cons.mp hm
    unfold Memory.insertCell
    split
    · rename_i hlt
      refine List.pairwise_cons.mpr ⟨fun p hp => ?_, hm⟩
      rcases List.mem_cons.mp hp with rfl | hp
      · exact hlt
      · exact Nat.lt_trans hlt (hhead p hp)
    · refine List.pairwise_cons.mpr ⟨fun p hp => ?_, ih htail fun q hq => ha q (by simp [hq])⟩
      rcases memory_mem_insertCell.mp hp with rfl | hp
      · show cell.1 < a
        omega
      · exact hhead p hp

/-- Every write keeps the canonical form. -/
theorem memory_wf_set {m : Memory} {a : Nat} {v : Byte} (hm : m.wf) (ha : a < 65536) : (m.set a v).wf := by
  have hsorted : (m.filter fun cell => cell.1 != a).Pairwise fun p q => p.1 < q.1 := hm.1.filter _
  unfold Memory.set
  split
  · exact ⟨hsorted, fun p hp => hm.2 p (List.mem_of_mem_filter hp)⟩
  · rename_i hv
    refine ⟨memory_insertCell_sorted hsorted (by simp), fun p hp => ?_⟩
    rcases memory_mem_insertCell.mp hp with rfl | hp
    · exact ⟨ha, hv⟩
    · exact hm.2 p (List.mem_of_mem_filter hp)

theorem memory_get_eq_unlisted {m : Memory} {a : Nat} (h : ∀ cell ∈ m, cell.1 ≠ a) : m.get a = Memory.unlisted := by
  induction m with
  | nil => rfl
  | cons cell m ih => simp [Memory.get, h cell (by simp), ih fun p hp => h p (by simp [hp])]

/-- Canonical memories that read alike everywhere are one list: equal memories are equal data. -/
theorem memory_ext {m n : Memory} (hm : m.wf) (hn : n.wf) (h : ∀ a, m.get a = n.get a) : m = n := by
  induction m generalizing n with
  | nil =>
    cases n with
    | nil => rfl
    | cons q n =>
      exact absurd (by simpa [Memory.get] using (h q.1).symm) (hn.2 q (by simp)).2
  | cons p m ih =>
    cases n with
    | nil => exact absurd (by simpa [Memory.get] using h p.1) (hm.2 p (by simp)).2
    | cons q n =>
      obtain ⟨hp, hm'⟩ := List.pairwise_cons.mp hm.1
      obtain ⟨hq, hn'⟩ := List.pairwise_cons.mp hn.1
      have hpq : p.1 = q.1 := by
        by_contra hne
        rcases Nat.lt_or_gt_of_ne hne with hlt | hlt
        · have hnone : Memory.get (q :: n) p.1 = Memory.unlisted := memory_get_eq_unlisted fun r hr => by
            rcases List.mem_cons.mp hr with rfl | hr
            · omega
            · have := hq r hr
              omega
          have := h p.1
          rw [hnone] at this
          exact (hm.2 p (by simp)).2 (by simpa [Memory.get] using this)
        · have hnone : Memory.get (p :: m) q.1 = Memory.unlisted := memory_get_eq_unlisted fun r hr => by
            rcases List.mem_cons.mp hr with rfl | hr
            · omega
            · have := hp r hr
              omega
          have := h q.1
          rw [hnone] at this
          exact (hn.2 q (by simp)).2 (by simpa [Memory.get] using this.symm)
      have hv : p.2 = q.2 := by simpa [Memory.get, hpq] using h p.1
      have htails : m = n := by
        refine ih ⟨hm', fun c hc => hm.2 c (by simp [hc])⟩ ⟨hn', fun c hc => hn.2 c (by simp [hc])⟩ fun a => ?_
        by_cases ha : p.1 = a
        · have h1 : ∀ r ∈ m, r.1 ≠ a := fun r hr => by
            have := hp r hr
            omega
          have h2 : ∀ r ∈ n, r.1 ≠ a := fun r hr => by
            have := hq r hr
            omega
          rw [memory_get_eq_unlisted h1, memory_get_eq_unlisted h2]
        · have hqa : ¬ q.1 = a := hpq ▸ ha
          simpa [Memory.get, ha, hqa] using h a
      rw [Prod.ext hpq hv, htails]

@[simp] theorem store_setStore_same (s : State) (addr : Word) (v : Byte) : (s.setStore addr v).store addr = v := by
  simp [State.store]

theorem store_setStore_other {addr b : Word} (s : State) (v : Byte) (h : b ≠ addr) :
    (s.setStore addr v).store b = s.store b :=
  memory_get_set_other _ _ fun hn => h (BitVec.eq_of_toNat_eq hn)

/-- The raw read of one byte looks at the memory alone. -/
theorem store_congr {s t : State} (h : s.mem = t.mem) (addr : Word) : s.store addr = t.store addr := by
  simp [State.store, h]

/-- A read through the address space looks at the memory and the count of draws alone (R34, R43). -/
theorem memRead_congr {s t : State} (c : Config) (h : s.mem = t.mem) (hd : s.draws = t.draws) (addr : Word) :
    memRead c s addr = memRead c t addr := by
  simp [memRead, store_congr h, hd]

/-- A read at one address is not changed by a read at another: the draws of one address are all masked reads. -/
theorem memRead_afterRead_other (c : Config) (s : State) {a b : Word} (h : b ≠ a) :
    memRead c (afterRead c s a) b = memRead c s b := by
  by_cases ha : a = c.portAData
  · have hb : b ≠ c.portAData := ha ▸ h
    simp [memRead, hb, store_congr (afterRead_mem c s a)]
  · rw [show afterRead c s a = s by simp [afterRead, drawsFreeByte, ha]]

/-- Everything a CPU byte write can do (R36): nothing, or one raw store away from the port-A data register. -/
theorem memWrite_cases (c : Config) (s : State) (addr : Word) (v : Byte) :
    memWrite c s addr v = s ∨ (addr ≠ c.portAData ∧ memWrite c s addr v = s.setStore addr v) := by
  unfold memWrite
  split
  · exact .inl rfl
  · rename_i h
    split
    · exact .inl rfl
    · exact .inr ⟨h, rfl⟩

/-- With the default parameters a read is raw everywhere but at the port-A data register (R34). -/
theorem memRead_specDefault (s : State) (addr : Word) :
    memRead Config.specDefault s addr =
      if addr = Config.specDefault.portAData then
        if s.store Config.specDefault.portADdr = 0x00#8 then s.store addr else 0x00#8
      else s.store addr := by
  have hin : isExcluded Config.specDefault addr = false := by simp [isExcluded, Config.specDefault]
  simp only [memRead, hin]
  rfl

/-- With the default parameters a read looks at the memory alone. -/
theorem memRead_specDefault_congr {s t : State} (h : s.mem = t.mem) (addr : Word) :
    memRead Config.specDefault s addr = memRead Config.specDefault t addr := by
  simp only [memRead_specDefault, store_congr h]

/-- With the default parameters a write is raw everywhere but at the port-A data register (R36). -/
theorem memWrite_specDefault (s : State) (addr : Word) (v : Byte) :
    memWrite Config.specDefault s addr v = if addr = Config.specDefault.portAData then s else s.setStore addr v := by
  have hin : isExcluded Config.specDefault addr = false := by simp [isExcluded, Config.specDefault]
  simp [memWrite, hin]

/-- A CPU byte write touches the memory alone. -/
theorem memWrite_eq (c : Config) (s : State) (addr : Word) (v : Byte) :
    memWrite c s addr v = { s with mem := (memWrite c s addr v).mem } := by
  rcases memWrite_cases c s addr v with h | ⟨-, h⟩ <;> rw [h]
  rfl

@[simp] theorem memWrite_a (c : Config) (s : State) (addr : Word) (v : Byte) : (memWrite c s addr v).a = s.a := by
  rw [memWrite_eq]

@[simp] theorem memWrite_pc (c : Config) (s : State) (addr : Word) (v : Byte) : (memWrite c s addr v).pc = s.pc := by
  rw [memWrite_eq]

@[simp] theorem memWrite_sp (c : Config) (s : State) (addr : Word) (v : Byte) : (memWrite c s addr v).sp = s.sp := by
  rw [memWrite_eq]

@[simp] theorem memWrite_hx (c : Config) (s : State) (addr : Word) (v : Byte) : (memWrite c s addr v).hx = s.hx := by
  rw [memWrite_eq]

@[simp] theorem memWrite_ccr (c : Config) (s : State) (addr : Word) (v : Byte) : (memWrite c s addr v).ccr = s.ccr := by
  rw [memWrite_eq]

@[simp] theorem memWrite_draws (c : Config) (s : State) (addr : Word) (v : Byte) : (memWrite c s addr v).draws = s.draws := by
  rw [memWrite_eq]

/-- A CPU byte write keeps the canonical form. -/
theorem memWrite_wf {c : Config} {s : State} {addr : Word} {v : Byte} (h : s.mem.wf) : (memWrite c s addr v).mem.wf := by
  rcases memWrite_cases c s addr v with e | ⟨-, e⟩ <;> rw [e]
  · exact h
  · exact memory_wf_set h addr.isLt

@[simp] theorem storeAcc_a (c : Config) (ea : Word) (s : State) : (storeAcc c ea s).a = s.a := by simp [storeAcc]

@[simp] theorem storeAcc_pc (c : Config) (ea : Word) (s : State) : (storeAcc c ea s).pc = s.pc := by simp [storeAcc]

@[simp] theorem storeAcc_sp (c : Config) (ea : Word) (s : State) : (storeAcc c ea s).sp = s.sp := by simp [storeAcc]

@[simp] theorem storeAcc_hx (c : Config) (ea : Word) (s : State) : (storeAcc c ea s).hx = s.hx := by simp [storeAcc]

@[simp] theorem storeAcc_draws (c : Config) (ea : Word) (s : State) : (storeAcc c ea s).draws = s.draws := by simp [storeAcc]

/-- The bytes STA leaves are those of its CPU byte write (R91). -/
theorem storeAcc_store (c : Config) (ea : Word) (s : State) (addr : Word) :
    (storeAcc c ea s).store addr = (memWrite c s ea s.a).store addr := rfl

@[simp] theorem storeAcc_mem (c : Config) (ea : Word) (s : State) : (storeAcc c ea s).mem = (memWrite c s ea s.a).mem := rfl

/-- The condition codes of STA (R91): V cleared, then SetNZ of the accumulator. -/
@[simp] theorem storeAcc_ccr (c : Config) (ea : Word) (s : State) :
    (storeAcc c ea s).ccr =
      ccrSetFlag c (ccrSetFlag c (ccrSetFlag c s.ccr .overflow false) .negative s.a.msb) .zero (s.a == 0x00#8) := by
  simp [storeAcc]

/-- The memory of State.reset is in canonical form. -/
theorem reset_memory_wf : State.reset.mem.wf := by decide

end Sys2Proof.Machine
end

