-- ==== Sys2Proof/Laws/Host.lean ====
section
/-! SUPPORT. What the host's requests can do, each said once: loading touches the memory alone and keeps its canonical form, and
so does one instruction cycle. -/

namespace Sys2Proof.Machine

theorem loadBytes_eq (bytes : List Byte) (cursor : Nat) (s : State) :
    (loadBytes bytes cursor s).2 = { s with mem := (loadBytes bytes cursor s).2.mem } := by
  induction bytes generalizing cursor s with
  | nil => rfl
  | cons b bytes ih =>
    unfold loadBytes
    split
    · rw [ih]
      rfl
    · rfl

theorem loadBytes_wf {bytes : List Byte} {cursor : Nat} {s : State} (h : s.mem.wf) :
    (loadBytes bytes cursor s).2.mem.wf := by
  induction bytes generalizing cursor s with
  | nil => exact h
  | cons b bytes ih =>
    unfold loadBytes
    split
    · exact ih (memory_wf_set h (BitVec.isLt _))
    · exact h

/-- Loading records touches the memory alone (R52). -/
theorem loadRecords_eq (records : List Record) (s : State) :
    (loadRecords records s).2 = { s with mem := (loadRecords records s).2.mem } := by
  induction records generalizing s with
  | nil => rfl
  | cons r records ih =>
    have hbytes := loadBytes_eq r.data r.address.toNat s
    unfold loadRecords
    split <;> rename_i s' heq <;> rw [heq] at hbytes <;> simp only at hbytes
    · rw [ih, hbytes]
    · exact hbytes

theorem loadRecords_wf {records : List Record} {s : State} (h : s.mem.wf) : (loadRecords records s).2.mem.wf := by
  induction records generalizing s with
  | nil => exact h
  | cons r records ih =>
    have hbytes := loadBytes_wf (bytes := r.data) (cursor := r.address.toNat) h
    unfold loadRecords
    split <;> rename_i s' heq <;> rw [heq] at hbytes
    · exact ih hbytes
    · exact hbytes

/-- Everything the execute phase of a cycle can leave in memory: what was there, or one CPU byte write of the accumulator. -/
theorem cycleSelect_mem (c : Config) (op : Byte) (operand : Operand) (s : State) :
    (cycleSelect c op operand s).2.mem = s.mem ∨ ∃ addr, (cycleSelect c op operand s).2.mem = (memWrite c s addr s.a).mem := by
  unfold cycleSelect
  simp only
  split_ifs
  · exact .inl (by simp)
  · exact .inl (by simp)
  · exact .inl (by simp)
  · split
    · exact .inl rfl
    · exact .inr ⟨_, rfl⟩
  · exact .inl rfl

/-- Everything one instruction cycle can leave in memory, for every choice of parameters (R23, R94). -/
theorem cycle_mem (c : Config) (s : State) :
    (cycle c s).2.mem = s.mem ∨ ∃ addr, (cycle c s).2.mem = (memWrite c s addr s.a).mem := by
  have hpc : ∀ (t : State), t.mem = s.mem → ∀ addr : Word, (memWrite c t addr s.a).mem = (memWrite c s addr s.a).mem := by
    intro t ht addr
    unfold memWrite
    split_ifs <;> simp [ht]
  unfold cycle
  simp only
  split_ifs
  · rcases cycleSelect_mem c _ (.immediate _) _ with h | ⟨addr, h⟩
    · exact .inl (h.trans (by simp))
    · exact .inr ⟨addr, h.trans (by simpa using hpc _ (by simp) addr)⟩
  · rcases cycleSelect_mem c _ (.direct _) _ with h | ⟨addr, h⟩
    · exact .inl (h.trans (by simp))
    · exact .inr ⟨addr, h.trans (by simpa using hpc _ (by simp) addr)⟩
  · exact .inl (by simp)
  · exact .inl (by simp)
  · unfold branchIfZero
    split_ifs <;> exact .inl (by simp)
  · exact .inl (by simp)

end Sys2Proof.Machine
end

