-- ==== Sys2Proof/Laws/PerInstr.lean ====
section
/-! SUPPORT. The per-instruction families of LAWS.json. EncodedLength: an instruction's encoding is two bytes, and one byte for
the bad mode nibble alone (R62, R72). -/

namespace Sys2Proof.Laws.EncodedLength

/-- The length of an instruction's encoding, for every choice of parameters (R62). -/
def Statement (i : Instr) : Prop :=
  ∀ c : Config, (encode c i).length = if i.mnemonic = "bad_mode_nibble__opcode_0xC0..0xFF" then 1 else 2

theorem addImm (imm8 : Byte) : Statement (.addImm imm8) := fun _ => rfl
theorem addDir (dir8 : Byte) : Statement (.addDir dir8) := fun _ => rfl
theorem andImm (imm8 : Byte) : Statement (.andImm imm8) := fun _ => rfl
theorem andDir (dir8 : Byte) : Statement (.andDir dir8) := fun _ => rfl
theorem ldaImm (imm8 : Byte) : Statement (.ldaImm imm8) := fun _ => rfl
theorem ldaDir (dir8 : Byte) : Statement (.ldaDir dir8) := fun _ => rfl
theorem staDir (dir8 : Byte) : Statement (.staDir dir8) := fun _ => rfl
theorem braRel (rel8 : Byte) : Statement (.braRel rel8) := fun _ => rfl
theorem beqRel (rel8 : Byte) : Statement (.beqRel rel8) := fun _ => rfl
theorem staImm (imm8 : Byte) : Statement (.staImm imm8) := fun _ => rfl
theorem unknownNibble (opcode operand : Byte) : Statement (.unknownNibble opcode operand) := fun _ => rfl
theorem badMode (opcode : Byte) : Statement (.badMode opcode) := fun _ => rfl
theorem unknownBranchLow (opcode operand : Byte) : Statement (.unknownBranchLow opcode operand) := fun _ => rfl
theorem unknownBranchHigh (opcode operand : Byte) : Statement (.unknownBranchHigh opcode operand) := fun _ => rfl

end Sys2Proof.Laws.EncodedLength
end

