-- ==== Sys2Proof/Laws/Step.lean ====
section
/-! SUPPORT. What fetching an instruction, executing one and one step can do: the inversion lemmas later proofs cite. -/

namespace Sys2Proof.Machine

@[simp] theorem exec_addImm (imm8 : Byte) (s : State) : exec (.addImm imm8) s = .next (aluAdd Config.specDefault imm8 s) := rfl

@[simp] theorem exec_addDir (dir8 : Byte) (s : State) :
    exec (.addDir dir8) s = .next (aluAdd Config.specDefault (memRead Config.specDefault s (zext16 dir8)) s) := rfl

@[simp] theorem exec_andImm (imm8 : Byte) (s : State) : exec (.andImm imm8) s = .next (aluAnd Config.specDefault imm8 s) := rfl

@[simp] theorem exec_andDir (dir8 : Byte) (s : State) :
    exec (.andDir dir8) s = .next (aluAnd Config.specDefault (memRead Config.specDefault s (zext16 dir8)) s) := rfl

@[simp] theorem exec_ldaImm (imm8 : Byte) (s : State) : exec (.ldaImm imm8) s = .next (loadAcc Config.specDefault imm8 s) := rfl

@[simp] theorem exec_ldaDir (dir8 : Byte) (s : State) :
    exec (.ldaDir dir8) s = .next (loadAcc Config.specDefault (memRead Config.specDefault s (zext16 dir8)) s) := rfl

@[simp] theorem exec_staDir (dir8 : Byte) (s : State) :
    exec (.staDir dir8) s = .next (storeAcc Config.specDefault (zext16 dir8) s) := rfl

@[simp] theorem exec_braRel (rel8 : Byte) (s : State) : exec (.braRel rel8) s = .next (branch rel8 s) := rfl

@[simp] theorem exec_beqRel (rel8 : Byte) (s : State) :
    exec (.beqRel rel8) s = .next (branchIfZero Config.specDefault rel8 s) := rfl

@[simp] theorem exec_staImm (imm8 : Byte) (s : State) :
    exec (.staImm imm8) s = .fault (.invalidAddressingMode (staImmOpcode Config.specDefault) s) := rfl

@[simp] theorem exec_unknownNibble (opcode operand : Byte) (s : State) :
    exec (.unknownNibble opcode operand) s = .fault (.invalidOpcode opcode s) := rfl

@[simp] theorem exec_badMode (opcode : Byte) (s : State) :
    exec (.badMode opcode) s = .fault (.invalidAddressingMode opcode s) := rfl

@[simp] theorem exec_unknownBranchLow (opcode operand : Byte) (s : State) :
    exec (.unknownBranchLow opcode operand) s = .fault (.invalidOpcode opcode s) := rfl

@[simp] theorem exec_unknownBranchHigh (opcode operand : Byte) (s : State) :
    exec (.unknownBranchHigh opcode operand) s = .fault (.invalidOpcode opcode s) := rfl

/-- Everything an instruction that completes can do. -/
theorem exec_next_cases {i : Instr} {s t : State} (h : exec i s = .next t) :
    (∃ data, t = aluAdd Config.specDefault data s) ∨ (∃ data, t = aluAnd Config.specDefault data s) ∨
    (∃ data, t = loadAcc Config.specDefault data s) ∨ (∃ dir8, t = storeAcc Config.specDefault (zext16 dir8) s) ∨
    (∃ rel8, t = branch rel8 s) ∨ t = s := by
  cases i <;> simp only [exec_addImm, exec_addDir, exec_andImm, exec_andDir, exec_ldaImm, exec_ldaDir, exec_staDir,
    exec_braRel, exec_beqRel, exec_staImm, exec_unknownNibble, exec_badMode, exec_unknownBranchLow, exec_unknownBranchHigh,
    Host.Outcome.next.injEq, reduceCtorEq] at h
  case beqRel rel8 =>
    subst h
    unfold branchIfZero
    split
    · exact .inr (.inr (.inr (.inr (.inl ⟨rel8, rfl⟩))))
    · exact .inr (.inr (.inr (.inr (.inr rfl))))
  all_goals subst h
  case addImm => exact .inl ⟨_, rfl⟩
  case addDir => exact .inl ⟨_, rfl⟩
  case andImm => exact .inr (.inl ⟨_, rfl⟩)
  case andDir => exact .inr (.inl ⟨_, rfl⟩)
  case ldaImm => exact .inr (.inr (.inl ⟨_, rfl⟩))
  case ldaDir => exact .inr (.inr (.inl ⟨_, rfl⟩))
  case staDir => exact .inr (.inr (.inr (.inl ⟨_, rfl⟩)))
  case braRel => exact .inr (.inr (.inr (.inr (.inl ⟨_, rfl⟩))))

/-- An instruction that fails leaves the state it executes in (R116). -/
theorem exec_fault_after {i : Instr} {s : State} {r : Fault} (h : exec i s = .fault r) : r.after = s := by
  cases i <;> simp at h <;> subst h <;> rfl

/-- No instruction is refused. -/
theorem exec_ne_refused (i : Instr) (s : State) (r : Refusal) : exec i s ≠ .refused r := by
  cases i <;> simp

/-- Fetching moves the program counter past the bytes it consumes and, the model's own count of draws apart, changes nothing else
(R12, R61, R72). -/
theorem fetchInstr_snd_eq (c : Config) (s : State) :
    (fetchInstr c s).2 =
      { s with
        pc := s.pc + if (decodeOneByte (memRead c s s.pc)).isSome then 1#16 else 2#16
        draws := (fetchInstr c s).2.draws } := by
  unfold fetchInstr
  cases h : decodeOneByte (memRead c s s.pc) with
  | some i => simp [fetch8, h]
  | none =>
    have hpc : s.pc + 1#16 + 1#16 = s.pc + 2#16 := by rw [BitVec.add_assoc]; rfl
    simp [fetch8, h, hpc]

/-- At the spec's setting of PORTA_MASKED_READ fetching moves the program counter and changes nothing else. -/
theorem fetchInstr_snd (s : State) :
    (fetchInstr Config.specDefault s).2 =
      { s with pc := s.pc + if (decodeOneByte (memRead Config.specDefault s s.pc)).isSome then 1#16 else 2#16 } := by
  have hdraws : (fetchInstr Config.specDefault s).2.draws = s.draws := by
    unfold fetchInstr
    cases decodeOneByte (fetch8 Config.specDefault s).1 <;> rfl
  rw [fetchInstr_snd_eq, hdraws]

/-- The instruction fetched: the one-byte failing encoding, or what the two bytes decode to. -/
theorem fetchInstr_fst (c : Config) (s : State) :
    (fetchInstr c s).1 =
      (decodeOneByte (memRead c s s.pc)).getD (decodeTwoBytes c (memRead c s s.pc) (memRead c s (s.pc + 1#16))) := by
  unfold fetchInstr
  cases h : decodeOneByte (memRead c s s.pc) with
  | some i => simp [fetch8, h]
  | none =>
    have hread : memRead c (fetch8 c s).2 (s.pc + 1#16) = memRead c s (s.pc + 1#16) := by
      have hne : s.pc + 1#16 ≠ s.pc := by bv_omega
      rw [← memRead_afterRead_other c s hne]
      exact memRead_congr c rfl rfl _
    simp [fetch8] at hread
    simp [fetch8, h, hread]

@[simp] theorem fetchInstr_mem (c : Config) (s : State) : (fetchInstr c s).2.mem = s.mem := by rw [fetchInstr_snd_eq]

/-- One step whose opcode byte takes an operand byte: the two bytes decoded, executed past them. -/
theorem step_twoBytes {s : State} {opcode : Byte} (hop : memRead Config.specDefault s s.pc = opcode)
    (hlen : decodeOneByte opcode = none) :
    step s =
      exec (decodeTwoBytes Config.specDefault opcode (memRead Config.specDefault s (s.pc + 1#16)))
        { s with pc := s.pc + 2#16 } := by
  unfold step
  rw [fetchInstr_fst, fetchInstr_snd, hop, hlen]
  rfl

/-- One step whose opcode byte is the whole encoding. -/
theorem step_oneByte {s : State} {opcode : Byte} {i : Instr} (hop : memRead Config.specDefault s s.pc = opcode)
    (hlen : decodeOneByte opcode = some i) : step s = exec i { s with pc := s.pc + 1#16 } := by
  unfold step
  rw [fetchInstr_fst, fetchInstr_snd, hop, hlen]
  rfl

end Sys2Proof.Machine
end

