-- ==== Sys2Proof/Laws/Run.lean ====
section
/-! SUPPORT. Runs of step requests, one step at a time, for the inductions over a run's length. -/

namespace Sys2Proof.Machine

/-- In any machine, a run whose first step completes is the rest of it from the next state. -/
theorem coreRun_succ_next (M : Host.Core) {s t : M.State} (n : Nat) (h : M.step s = .next t) : M.run (n + 1) s = M.run n t := by
  simp only [Host.Core.run, h]

/-- In any machine, a run whose first step fails ends there. -/
theorem coreRun_succ_fault (M : Host.Core) {s : M.State} {r : M.Fault} (n : Nat) (h : M.step s = .fault r) :
    M.run (n + 1) s = .fault r := by
  simp only [Host.Core.run, h]

@[simp] theorem run_zero (s : State) : Sys2Proof.core.run 0 s = .next s := rfl

/-- A run whose first step completes is the rest of it from the next state. -/
theorem run_succ_next {s t : State} (n : Nat) (h : step s = .next t) : Sys2Proof.core.run (n + 1) s = Sys2Proof.core.run n t :=
  coreRun_succ_next Sys2Proof.core n h

/-- A run whose first step fails ends there (R117). -/
theorem run_succ_fault {s : State} {r : Fault} (n : Nat) (h : step s = .fault r) : Sys2Proof.core.run (n + 1) s = .fault r :=
  coreRun_succ_fault Sys2Proof.core n h

/-- The first step of a run completes or fails; no step is refused. -/
theorem step_next_or_fault (s : State) : (∃ t, step s = .next t) ∨ ∃ r, step s = .fault r := by
  cases h : step s with
  | next t => exact .inl ⟨t, rfl⟩
  | fault r => exact .inr ⟨r, rfl⟩
  | refused r => exact absurd h (exec_ne_refused _ _ r)

end Sys2Proof.Machine
end

