-- ==== Sys2Proof/Laws/Words.lean ====
section
/-! SUPPORT. The laws of the width conversions of R148: joining and splitting words, sign extension as integer addition. -/

namespace Sys2Proof.Machine

theorem joinBytes_toNat (high low : Byte) : (joinBytes high low).toNat = high.toNat * 256 + low.toNat := by
  show (BitVec.append high low).toNat = _
  rw [BitVec.append_eq, BitVec.toNat_append, Nat.shiftLeft_eq, Nat.mul_comm, ← Nat.two_pow_add_eq_or_of_lt low.isLt]

theorem hi8_toNat (w : Word) : (hi8 w).toNat = w.toNat / 256 := by
  have := w.isLt
  simp [hi8, Nat.shiftRight_eq_div_pow]
  omega

theorem lo8_toNat (w : Word) : (lo8 w).toNat = w.toNat % 256 := by simp [lo8]

@[simp] theorem hi8_joinBytes (high low : Byte) : hi8 (joinBytes high low) = high := by
  apply BitVec.eq_of_toNat_eq
  rw [hi8_toNat, joinBytes_toNat]
  have := high.isLt
  have := low.isLt
  omega

@[simp] theorem lo8_joinBytes (high low : Byte) : lo8 (joinBytes high low) = low := by
  apply BitVec.eq_of_toNat_eq
  rw [lo8_toNat, joinBytes_toNat]
  have := low.isLt
  omega

@[simp] theorem joinBytes_hi8_lo8 (w : Word) : joinBytes (hi8 w) (lo8 w) = w := by
  apply BitVec.eq_of_toNat_eq
  rw [joinBytes_toNat, hi8_toNat, lo8_toNat]
  omega

theorem sext16_toNat (v : Byte) : ((sext16 v).toNat : Int) = signed8 v % 65536 := by
  revert v
  decide

/-- Adding a sign-extended byte is adding its signed value modulo 65536 (R83, R100). -/
theorem add_sext16_toNat (p : Word) (v : Byte) :
    ((p + sext16 v).toNat : Int) = ((p.toNat : Int) + signed8 v) % 65536 := by
  have h := sext16_toNat v
  have h16 : (2 : Int) ^ 16 = 65536 := by norm_num
  rw [BitVec.toNat_add]
  push_cast
  omega

/-- A zero-extended byte is an address below 0x0100 (R92). -/
theorem zext16_le (v : Byte) : zext16 v ≤ 0x00FF#16 := by
  revert v
  decide

theorem msb_iff_toNat (v : Byte) : v.msb = true ↔ 128 ≤ v.toNat := by simp [BitVec.msb_eq_decide]

end Sys2Proof.Machine
end

