-- ==== Sys2Proof/Tests/Slice0.lean ====
section
/-! SUPPORT. The model's own tests. Every expected value is the spec's: the encodings of 30_encoding.md section 5, the vectors of
95_test_vectors.md (named in each test) or a rule's worked example. Then one witness for every hypothesis of a statement. -/

namespace Sys2Proof.Tests

open Sys2Proof.Machine

/-- A state with a program counter, an accumulator, condition codes and memory cells; SP and HX are zero. -/
def machineAt (pc : Word) (a ccr : Byte) (mem : Memory) : State := ⟨a, pc, 0x0000#16, 0x0000#16, ccr, mem, 0⟩

/-- The accumulator, condition codes and program counter a step completes with. -/
def completed (o : Outcome) : Option (Byte × Byte × Word) :=
  match o with
  | .next t => some (t.a, t.ccr, t.pc)
  | _ => none

/-- The memory a step completes with. -/
def completedMemory (o : Outcome) : Option Memory :=
  match o with
  | .next t => some t.mem
  | _ => none

/-- The failure a step reports. -/
def failed (o : Outcome) : Option Fault :=
  match o with
  | .fault r => some r
  | _ => none

-- Decoding: words written out from the bit strings of R63, R64 and the opcode bytes of R77.

theorem test_decode_addImm : decodeTableWord 16 0b1010101101001100 = some (.addImm 0x4C#8) := by decide
theorem test_decode_addDir : decodeTableWord 16 0b1011101110010001 = some (.addDir 0x91#8) := by decide
theorem test_decode_andImm : decodeTableWord 16 0b1010010000001111 = some (.andImm 0x0F#8) := by decide
theorem test_decode_andDir : decodeTableWord 16 0b1011010000000000 = some (.andDir 0x00#8) := by decide
theorem test_decode_ldaImm : decodeTableWord 16 0b1010011000000101 = some (.ldaImm 0x05#8) := by decide
theorem test_decode_ldaDir : decodeTableWord 16 0b1011011010010000 = some (.ldaDir 0x90#8) := by decide
theorem test_decode_staDir : decodeTableWord 16 0b1011011110010010 = some (.staDir 0x92#8) := by decide
theorem test_decode_braRel : decodeTableWord 16 0b0010000011111110 = some (.braRel 0xFE#8) := by decide
theorem test_decode_beqRel : decodeTableWord 16 0b0010011100000010 = some (.beqRel 0x02#8) := by decide
theorem test_decode_staImm : decodeTableWord 16 0b1010011110010000 = some (.staImm 0x90#8) := by decide
theorem test_decode_unknownNibble : decodeTableWord 16 0b1011111110010000 = some (.unknownNibble 0xBF#8 0x90#8) := by decide
theorem test_decode_badMode : decodeTableWord 16 0b1100011000000000 = some (.badMode 0xC6#8) := by decide
theorem test_decode_unknownBranchLow : decodeTableWord 16 0b0010000100010000 = some (.unknownBranchLow 0x21#8 0x10#8) := by decide
theorem test_decode_unknownBranchHigh : decodeTableWord 16 0b1001111100010001 = some (.unknownBranchHigh 0x9F#8 0x11#8) := by decide

/-- The bad-mode row is one byte long: the byte alone, as an eight-bit word, gives it too. -/
theorem test_decode_badMode_alone : decodeTableWord 8 0b11000110 = some (.badMode 0xC6#8) := by decide

/-- R72: the byte after a bad mode nibble is not part of the instruction. -/
theorem test_decode_badMode_leaves_next_byte :
    (decode Config.specDefault [0xC6#8, 0x12#8]).toOption = some (.badMode 0xC6#8, [0x12#8]) := by decide

-- WellFormed: one ill-formed term for each check.

theorem test_wf_nibble_below_class : (Instr.unknownNibble 0x9F#8 0x00#8).wf Config.specDefault = false := by decide
theorem test_wf_nibble_above_class : (Instr.unknownNibble 0xC0#8 0x00#8).wf Config.specDefault = false := by decide
theorem test_wf_nibble_known : (Instr.unknownNibble 0xBB#8 0x00#8).wf Config.specDefault = false := by decide
theorem test_wf_badMode_below_class : (Instr.badMode 0xBF#8).wf Config.specDefault = false := by decide
theorem test_wf_branchLow_above_class : (Instr.unknownBranchLow 0x80#8 0x00#8).wf Config.specDefault = false := by decide
theorem test_wf_branchLow_known : (Instr.unknownBranchLow 0x27#8 0x00#8).wf Config.specDefault = false := by decide
theorem test_wf_branchHigh_below_class : (Instr.unknownBranchHigh 0x7F#8 0x00#8).wf Config.specDefault = false := by decide
theorem test_wf_branchHigh_above_class : (Instr.unknownBranchHigh 0xA0#8 0x00#8).wf Config.specDefault = false := by decide
theorem test_wf_branchHigh_known :
    (Instr.unknownBranchHigh 0x90#8 0x00#8).wf { Config.specDefault with opcBra := 0x90#8 } = false := by decide

-- Instructions: 95_test_vectors.md.

/-- V1 (and the worked example of R80). -/
theorem test_addImm_half_and_overflow :
    completed (step (machineAt 0x0080#16 0x3A#8 0x00#8 [(0x80, 0xAB#8), (0x81, 0x4C#8)])) =
      some (0x86#8, 0x94#8, 0x0082#16) := by decide

/-- V1, "further ADD facts": every flag set before is cleared, and the old carry is not added. -/
theorem test_addImm_clears_flags :
    completed (step (machineAt 0x0080#16 0x01#8 0x97#8 [(0x80, 0xAB#8), (0x81, 0x01#8)])) =
      some (0x02#8, 0x00#8, 0x0082#16) := by decide

/-- V3: ADD from the port-A data register, gate open. -/
theorem test_addDir_port :
    completed (step (machineAt 0x0080#16 0x0F#8 0x00#8 [(0x00, 0xA5#8), (0x80, 0xBB#8)])) =
      some (0xB4#8, 0x14#8, 0x0082#16) := by decide

/-- V3: ADD of the instruction's own operand byte. -/
theorem test_addDir_own_operand :
    completed (step (machineAt 0x0080#16 0x11#8 0x00#8 [(0x80, 0xBB#8), (0x81, 0x81#8)])) =
      some (0x92#8, 0x04#8, 0x0082#16) := by decide

/-- V2: V cleared, C and H kept. -/
theorem test_andImm_keeps_carry_and_half :
    completed (step (machineAt 0x0080#16 0xF0#8 0x91#8 [(0x80, 0xA4#8), (0x81, 0x0F#8)])) =
      some (0x00#8, 0x13#8, 0x0082#16) := by decide

/-- V3: AND with the port-A data register, gate closed. -/
theorem test_andDir_masked_port :
    completed (step (machineAt 0x0080#16 0x0F#8 0x00#8 [(0x00, 0xA5#8), (0x03, 0x01#8), (0x80, 0xB4#8)])) =
      some (0x00#8, 0x02#8, 0x0082#16) := by decide

/-- V3: N set, Z cleared, V cleared, C and H kept. -/
theorem test_ldaImm_flags :
    completed (step (machineAt 0x0080#16 0x33#8 0x13#8 [(0x80, 0xA6#8), (0x81, 0x80#8)])) =
      some (0x80#8, 0x15#8, 0x0082#16) := by decide

/-- V3: LDA of its own opcode byte. -/
theorem test_ldaDir_own_opcode :
    completed (step (machineAt 0x0080#16 0x0F#8 0x00#8 [(0x80, 0xB6#8), (0x81, 0x80#8)])) =
      some (0xB6#8, 0x04#8, 0x0082#16) := by decide

/-- V4: the store, and the flags of the unchanged accumulator. -/
theorem test_staDir_stores :
    completedMemory (step (machineAt 0x0080#16 0x7F#8 0x97#8 [(0x80, 0xB7#8), (0x81, 0xFF#8)])) =
      some [(0x80, 0xB7#8), (0x81, 0xFF#8), (0xFF, 0x7F#8)] := by decide

/-- V4: the rejected store to the port-A data register still writes the flags. -/
theorem test_staDir_port_rejected :
    (completedMemory (step (machineAt 0x0080#16 0x80#8 0x00#8 [(0x00, 0xA5#8), (0x80, 0xB7#8)])),
      completed (step (machineAt 0x0080#16 0x80#8 0x00#8 [(0x00, 0xA5#8), (0x80, 0xB7#8)]))) =
      (some [(0x00, 0xA5#8), (0x80, 0xB7#8)], some (0x80#8, 0x04#8, 0x0082#16)) := by decide

/-- V5: opcode byte at 0xFFFF, offset byte at 0x0000. -/
theorem test_braRel_wraps :
    completed (step (machineAt 0xFFFF#16 0x00#8 0x00#8 [(0x00, 0x80#8), (0xFFFF, 0x20#8)])) =
      some (0x00#8, 0x00#8, 0xFF81#16) := by decide

/-- V5: the self branch. -/
theorem test_braRel_self :
    completed (step (machineAt 0x0080#16 0x5A#8 0x95#8 [(0x80, 0x20#8), (0x81, 0xFE#8)])) =
      some (0x5A#8, 0x95#8, 0x0080#16) := by decide

/-- V5: taken backwards. -/
theorem test_beqRel_taken :
    completed (step (machineAt 0x0084#16 0x00#8 0x13#8 [(0x84, 0x27#8), (0x85, 0x80#8)])) =
      some (0x00#8, 0x13#8, 0x0006#16) := by decide

/-- V5: not taken, only Z matters. -/
theorem test_beqRel_not_taken :
    completed (step (machineAt 0x0084#16 0x00#8 0x95#8 [(0x84, 0x27#8), (0x85, 0x80#8)])) =
      some (0x00#8, 0x95#8, 0x0086#16) := by decide

/-- V6: STA immediate. -/
theorem test_staImm_fails :
    failed (step (machineAt 0x0080#16 0x5A#8 0x95#8 [(0x80, 0xA7#8), (0x81, 0x90#8)])) =
      some (.invalidAddressingMode 0xA7#8 (machineAt 0x0082#16 0x5A#8 0x95#8 [(0x80, 0xA7#8), (0x81, 0x90#8)])) := by decide

/-- V6: an unknown low nibble. -/
theorem test_unknownNibble_fails :
    failed (step (machineAt 0x0080#16 0x5A#8 0x95#8 [(0x80, 0xBF#8), (0x81, 0x90#8)])) =
      some (.invalidOpcode 0xBF#8 (machineAt 0x0082#16 0x5A#8 0x95#8 [(0x80, 0xBF#8), (0x81, 0x90#8)])) := by decide

/-- V6: a bad mode nibble at 0xFFFF consumes one byte. -/
theorem test_badMode_fails :
    failed (step (machineAt 0xFFFF#16 0x5A#8 0x95#8 [(0xFFFF, 0xC0#8)])) =
      some (.invalidAddressingMode 0xC0#8 (machineAt 0x0000#16 0x5A#8 0x95#8 [(0xFFFF, 0xC0#8)])) := by decide

/-- V6: the reset state, nothing loaded (R131). -/
theorem test_unknownBranchLow_after_reset :
    failed (step State.reset) = some (.invalidOpcode 0x00#8 (machineAt 0x0002#16 0x00#8 0x00#8 [])) := by decide

/-- V6: an unknown branch-class opcode above 0x7F. -/
theorem test_unknownBranchHigh_fails :
    failed (step (machineAt 0x0080#16 0x5A#8 0x95#8 [(0x80, 0x9F#8), (0x81, 0x11#8)])) =
      some (.invalidOpcode 0x9F#8 (machineAt 0x0082#16 0x5A#8 0x95#8 [(0x80, 0x9F#8), (0x81, 0x11#8)])) := by decide

/-- V9: the operand byte at 0x0000 is masked by a non-zero direction register. -/
theorem test_fetch_masked_operand :
    completed (step (machineAt 0xFFFF#16 0x11#8 0x00#8 [(0x00, 0x5A#8), (0x03, 0xFF#8), (0xFFFF, 0xA6#8)])) =
      some (0x00#8, 0x02#8, 0x0001#16) := by decide

/-- The host's placing of a table word right after reset: LDA #0x05 runs (S2). -/
theorem test_withFetchWord_runs :
    completed (step (State.reset.withFetchWord 16 0xA605)) = some (0x05#8, 0x00#8, 0x0002#16) := by decide

-- Registers, memory and host: V7, V8, S1, S9.

theorem test_setH_keeps_X : ((State.reset.setHX 0x1234#16).setH 0xAB#8).hx = 0xAB34#16 := by decide

theorem test_setX_keeps_H : ((State.reset.setHX 0xAB34#16).setX 0xCD#8).hx = 0xABCD#16 := by decide

theorem test_setFlag_keeps_unnamed : ccrSetFlag Config.specDefault 0xFF#8 .zero false = 0xFD#8 := by decide

theorem test_memory_stays_canonical : Memory.set [(0x80, 0xB7#8), (0x90, 0x12#8)] 0x80 0x00#8 = [(0x90, 0x12#8)] := by decide

theorem test_word_is_big_endian :
    (hostWriteWord Config.specDefault State.reset 0x0090#16 0xBEEF#16).map (·.mem) = some [(0x90, 0xBE#8), (0x91, 0xEF#8)] := by
  decide

theorem test_load_out_of_bounds_keeps_first_byte :
    ((loadRecords [⟨0xFFFF#16, [0x01#8, 0x02#8]⟩] State.reset).1, (loadRecords [⟨0xFFFF#16, [0x01#8, 0x02#8]⟩] State.reset).2.mem) =
      (false, [(0xFFFF, 0x01#8)]) := by decide

/-- S9. -/
theorem test_record_file_parses :
    parseRecords "S1050080A605CF\nS90300807C\n".toList = ⟨some 0x0080#16, [[0x00#8, 0x80#8, 0xA6#8, 0x05#8]]⟩ := by decide

/-- S9: one checksum digit flipped. -/
theorem test_record_file_bad_checksum : parseRecords "S1050080A605CE\nS90300807C\n".toList = ⟨none, []⟩ := by decide

/-- Log entry 27, the model's choice: an entry record alone validates, holds no data and gives no image. -/
theorem test_entry_record_alone_gives_no_image :
    parseRecords "S90300807C\n".toList = ⟨some 0x0080#16, []⟩ ∧ imageOfText "S90300807C\n".toList = none := by decide

/-- R78, with the addresses of program P2. -/
theorem test_assemble_branch_back : assemble 0x0086#16 (.bra 0x0082#16) = some (.braRel 0xFA#8) := by decide

-- Witnesses: the hypotheses of the statements are met together.

/-- STA 0x90 at 0x0080. -/
def storing : State := machineAt 0x0080#16 0x9C#8 0x00#8 [(0x80, 0xB7#8), (0x81, 0x90#8)]

/-- BRA to itself at 0x0080. -/
def idle : State := machineAt 0x0080#16 0x00#8 0x00#8 [(0x80, 0x20#8), (0x81, 0xFE#8)]

/-- BEQ at 0x0080 with Z as given. -/
def beqAt (ccr : Byte) : State := machineAt 0x0080#16 0x00#8 ccr [(0x80, 0x27#8), (0x81, 0x02#8)]

/-- A failing opcode byte at 0x0080. -/
def failingAt (opcode : Byte) : State := machineAt 0x0080#16 0x00#8 0x00#8 [(0x80, opcode)]

/-- LDA of the port-A data register with the gate closed. -/
def gateClosed (port : Byte) : State := machineAt 0x0080#16 0x11#8 0x00#8 [(0x00, port), (0x03, 0x01#8), (0x80, 0xB6#8)]

/-- A one-record image. -/
def image : Image := ⟨0x0080#16, [⟨0x0080#16, [0xA6#8, 0x05#8]⟩]⟩

/-- A system with that image launched. -/
def launched : System := (launch Config.specDefault image ⟨State.reset, none⟩).2

theorem witness_StepRunsTheDecodedInstruction :
    decode Config.specDefault
      [memRead Config.specDefault storing storing.pc, memRead Config.specDefault storing (storing.pc + 1#16)] =
      .ok (.staDir 0x90#8, []) := rfl

theorem witness_DecodeInvertsEncode : Config.specDefault.Legal ∧ (Instr.unknownNibble 0xBF#8 0x00#8).wf Config.specDefault = true :=
  ⟨specDefault_legal, by decide⟩

theorem witness_EncodeInvertsDecode : decode Config.specDefault [0xFF#8, 0x01#8] = .ok (.badMode 0xFF#8, [0x01#8]) := rfl

theorem witness_AddAssignsResultAndFiveFlags :
    ∃ dir8, Instr.addDir 0x90#8 = .addDir dir8 ∧ 0x00#8 = memRead Config.specDefault storing (effectiveAddress dir8) :=
  ⟨0x90#8, rfl, rfl⟩

theorem witness_AndAssignsResultAndLogicFlags :
    ∃ dir8, Instr.andDir 0x81#8 = .andDir dir8 ∧ 0x90#8 = memRead Config.specDefault storing (effectiveAddress dir8) :=
  ⟨0x81#8, rfl, rfl⟩

theorem witness_LdaLoadsAndAssignsLogicFlags :
    ∃ dir8, Instr.ldaDir 0x00#8 = .ldaDir dir8 ∧ 0x00#8 = memRead Config.specDefault (gateClosed 0xA5#8) (effectiveAddress dir8) :=
  ⟨0x00#8, rfl, rfl⟩

theorem witness_BraBranchesAlways :
    Config.specDefault.Legal ∧ memRead Config.specDefault idle idle.pc = Config.specDefault.opcBra ∧
      (0x80#8 : Byte).msb = true ∧ (0x7F#8 : Byte).msb = false :=
  ⟨specDefault_legal, by decide, by decide, by decide⟩

theorem witness_BeqBranchesOnZero :
    memRead Config.specDefault (beqAt 0x02#8) (beqAt 0x02#8).pc = Config.specDefault.opcBeq ∧
      (beqAt 0x02#8).isFlag Config.specDefault .zero = true ∧ (beqAt 0x95#8).isFlag Config.specDefault .zero = false := by
  decide

/-- One opcode byte at each end of each clause's range; 0xA7 stands in the range of the third clause and is excluded there. -/
theorem witness_FailingCycleMovesOnlyThePc :
    (∀ opcode ∈ [0xC0#8, 0xFF#8, 0xA7#8, 0xA0#8, 0xBF#8, 0x01#8, 0x9F#8],
      memRead Config.specDefault (failingAt opcode) (failingAt opcode).pc = opcode) ∧
      insNibble 0xA0#8 ∉ [0xB#4, 0x4#4, 0x6#4, 0x7#4] ∧ insNibble 0xBF#8 ∉ [0xB#4, 0x4#4, 0x6#4, 0x7#4] ∧
      insNibble 0xA7#8 ∈ [0xB#4, 0x4#4, 0x6#4, 0x7#4] := by decide

theorem witness_ExactlyNineOpcodesComplete : ∃ t, step storing = .next t := ⟨_, rfl⟩

theorem witness_StepKeepsTheInvariant :
    storing.Inv ∧ (∃ t, step storing = .next t) ∧ (failingAt 0xC0#8).Inv ∧ ∃ r, step (failingAt 0xC0#8) = .fault r :=
  ⟨by decide, ⟨_, rfl⟩, by decide, ⟨_, rfl⟩⟩

theorem witness_EveryRequestKeepsTheInvariant : (System.mk storing none).core.Inv := by decide

theorem witness_ProgramsChangeOnlyTheirOwnState : ∃ t, RunsTo 1 storing t ∧ t.mem ≠ storing.mem :=
  ⟨_, run_succ_next 0 rfl, by decide⟩

theorem witness_OnlyStaChangesMemory : ∃ t, step storing = .next t ∧ t.store 0x0090#16 ≠ storing.store 0x0090#16 :=
  ⟨_, rfl, by decide⟩

theorem witness_CompletedCycleSetsThePc : (∃ t, step (beqAt 0x02#8) = .next t) ∧ ∃ t, step (beqAt 0x00#8) = .next t :=
  ⟨⟨_, rfl⟩, ⟨_, rfl⟩⟩

theorem witness_OnlyATakenSelfBranchChangesNothing : step idle = .next idle := rfl

theorem witness_EndedRunStaysForEver : idle.ended Config.specDefault = true := by decide

/-- A failing cycle of each length, and what stands at the advanced program counter: the reset byte 0x00 in both. -/
theorem witness_NextStepAfterAFailureRunsAtTheAdvancedPc :
    (∃ r, step (failingAt 0xC0#8) = .fault r ∧ r.opcode = 0xC0#8) ∧ (∃ r, step (failingAt 0xA7#8) = .fault r ∧ r.opcode = 0xA7#8) ∧
      decode Config.specDefault
        [memRead Config.specDefault (failingAt 0xA7#8) 0x0082#16, memRead Config.specDefault (failingAt 0xA7#8) 0x0083#16] =
        .ok (.unknownBranchLow 0x00#8 0x00#8, []) :=
  ⟨⟨_, rfl, rfl⟩, ⟨_, rfl, rfl⟩, rfl⟩

/-- Two states that differ in SP, HX and every flag but Z; and one whose run is faulted. -/
theorem witness_RunsReadOnlyAPcMemoryAndZ :
    AgreeOnInputs Config.specDefault storing { storing with sp := 0x1234#16, hx := 0xABCD#16, ccr := 0xFD#8 } ∧
      (∃ t, RunsTo 1 storing t) ∧ Faulted 1 (failingAt 0xC0#8) :=
  ⟨⟨rfl, rfl, rfl, by decide⟩, ⟨_, run_succ_next 0 rfl⟩, ⟨_, run_succ_fault 0 rfl⟩⟩

theorem witness_ClosedGateHidesThePortByte :
    (gateClosed 0xA5#8).store Config.specDefault.portADdr ≠ 0x00#8 ∧
      AgreeButPort Config.specDefault (gateClosed 0xA5#8) (gateClosed 0x5A#8) ∧ ∃ t, step (gateClosed 0xA5#8) = .next t := by
  refine ⟨by decide, ⟨rfl, rfl, ⟨rfl, rfl⟩, rfl, rfl, fun b hb => ?_⟩, ⟨_, rfl⟩⟩
  have hne : ¬ 0 = b.toNat := fun h => hb (BitVec.eq_of_toNat_eq h.symm)
  simp [State.store, gateClosed, machineAt, Memory.get, hne]

theorem witness_SetFlagChangesExactlyOneBit : Config.specDefault.Legal ∧ Flag.zero ≠ Flag.carry := ⟨specDefault_legal, by decide⟩

theorem witness_PortADataIsReadOnlyToTheCpu :
    (0x0001#16 : Word) ≠ Config.specDefault.portAData ∧ effectiveAddress 0x00#8 = Config.specDefault.portAData := by decide

theorem witness_PortADataReadIsGated :
    storing.store Config.specDefault.portADdr = 0x00#8 ∧ (gateClosed 0xA5#8).store Config.specDefault.portADdr ≠ 0x00#8 ∧
      (0xFFFF#16 : Word) ≠ Config.specDefault.portAData := by decide

/-- The spec's default parameters with PORTA_MASKED_READ = any (R7). -/
def anyConfig : Config := { Config.specDefault with maskedRead := .any }

theorem witness_MaskedReadFollowsThePolicy :
    anyConfig.maskedRead = .any ∧ (gateClosed 0xA5#8).store anyConfig.portADdr ≠ 0x00#8 ∧ storing.store anyConfig.portADdr = 0x00#8 ∧
      Config.specDefault.maskedRead = .byte 0x00#8 ∧ (0x0090#16 : Word) ≠ anyConfig.portAData := by decide

theorem witness_LdaOfAMaskedPortDrawsAFreeByte :
    anyConfig.Legal ∧ anyConfig.maskedRead = .any ∧ (gateClosed 0xA5#8).store anyConfig.portADdr ≠ 0x00#8 ∧
      (gateClosed 0xA5#8).pc ≠ anyConfig.portAData ∧ (gateClosed 0xA5#8).pc + 1#16 ≠ anyConfig.portAData ∧
      memRead anyConfig (gateClosed 0xA5#8) (gateClosed 0xA5#8).pc = opcodeM directMode anyConfig.lnLda ∧
      effectiveAddress (memRead anyConfig (gateClosed 0xA5#8) ((gateClosed 0xA5#8).pc + 1#16)) = anyConfig.portAData :=
  ⟨{ specDefault_legal with }, by decide, by decide, by decide, by decide, by decide, by decide⟩

theorem witness_StoreIsSeenByTheNextFetch :
    effectiveAddress 0x03#8 ≠ Config.specDefault.portAData ∧ effectiveAddress 0x03#8 = Config.specDefault.portADdr := by decide

theorem witness_FetchReadsAByteAndAdvances :
    State.reset.pc = Config.specDefault.portAData ∧ decodeOneByte (fetch8 Config.specDefault storing).1 = none := by decide

theorem witness_RegionsAreAlikeButForThePort : (0x1080#16 : Word) ≠ Config.specDefault.portAData := by decide

theorem witness_BranchArithmeticRoundTrips : 1 ≤ 127 ∧ 127 ≤ 127 ∧ 128 ≤ 255 ∧ 255 ≤ 255 := by decide

theorem witness_WordAccessIsBigEndian : (0x0002#16 : Word) ≠ 0xFFFF#16 ∧ (0x0002#16 : Word) ≠ Config.specDefault.portAData := by decide

theorem witness_HostByteAccessToleratesAnyAddress : ((-1 : Int) < 0 ∨ 65536 ≤ (-1 : Int)) ∧ ((65536 : Int) < 0 ∨ 65536 ≤ (65536 : Int)) := by
  decide

theorem witness_LoadWritesTheRecord : ([0x01#8, 0x02#8] : List Byte)[1]? = some 0x02#8 ∧ (0xFFFE#16 : Word).toNat + 1 < 65536 := by
  decide

theorem witness_LaunchStartsAtTheEntryAddress : launch Config.specDefault image ⟨State.reset, none⟩ = (.done, launched) := rfl

theorem witness_ResetAndReloadRestoreTheLaunch : ∀ r ∈ [Request.step, .writeByte 0x11#8 0x90], ∀ other, r ≠ .load other := by
  simp

theorem witness_InputBitWritesOnePortBit : Config.specDefault.inputPosition .first = Config.specDefault.inputPosition .first := rfl

theorem witness_OnlyHostInputsChangeThePortByte :
    (serve Config.specDefault ⟨gateClosed 0xA5#8, none⟩ .reset).2.core.store Config.specDefault.portAData ≠
      (gateClosed 0xA5#8).store Config.specDefault.portAData := by decide

theorem witness_AssembledBranchReachesItsTarget :
    branchOffset idle.pc 0x0080#16 = some 0xFE#8 ∧ memRead Config.specDefault idle idle.pc = Config.specDefault.opcBra ∧
      memRead Config.specDefault idle (idle.pc + 1#16) = 0xFE#8 := by decide

theorem witness_PlacedInstructionIsFetched :
    (0x0002#16 : Word) ≠ State.reset.pc ∧ (0x0002#16 : Word) ≠ State.reset.pc + 1#16 ∧
      (0x0002#16 : Word) ≠ Config.specDefault.portADdr := by decide

theorem witness_ValidRecordHasTrueCountAndChecksum :
    validateRecord "1050080A605CF".toList = some (.data, [0x00#8, 0x80#8, 0xA6#8, 0x05#8]) := by decide

theorem witness_OneBadRecordAbortsTheLoad :
    "1050080A605CE".toList ∈ recordSegments "S1050080A605CE\nS90300807C".toList ∧ validateRecord "1050080A605CE".toList = none := by
  decide

end Sys2Proof.Tests
end

section
/-! PROOF. The register file: the index register with its views H and X (spec/10_state.md R15, R16), and the flag updater
setFlag (R20). -/

namespace Sys2Proof.Machine

/-- `{a, b}` of R148 in the form R16 writes it: the high byte shifted up, the low byte put in by OR. -/
theorem joinBytes_eq_shiftLeft_or (high low : Byte) :
    joinBytes high low = (high.zeroExtend 16 <<< 8) ||| low.zeroExtend 16 := by
  rw [joinBytes, BitVec.append_def, BitVec.shiftLeftZeroExtend_eq, BitVec.setWidth'_eq]

/-- R16 of one state, where H and X are views of the one stored word. -/
@[simp] theorem joinBytes_h_x (s : State) : joinBytes s.h s.x = s.hx := joinBytes_hi8_lo8 s.hx

theorem h_toNat (s : State) : s.h.toNat = s.hx.toNat / 256 := hi8_toNat s.hx
theorem x_toNat (s : State) : s.x.toNat = s.hx.toNat % 256 := lo8_toNat s.hx

@[simp] theorem setHX_h (s : State) (v : Word) : (s.setHX v).h = hi8 v := rfl
@[simp] theorem setHX_x (s : State) (v : Word) : (s.setHX v).x = lo8 v := rfl
@[simp] theorem setH_h (s : State) (b : Byte) : (s.setH b).h = b := hi8_joinBytes b s.x
@[simp] theorem setH_x (s : State) (b : Byte) : (s.setH b).x = s.x := lo8_joinBytes b s.x
@[simp] theorem setX_h (s : State) (b : Byte) : (s.setX b).h = s.h := hi8_joinBytes s.h b
@[simp] theorem setX_x (s : State) (b : Byte) : (s.setX b).x = b := lo8_joinBytes s.h b

/-- Settles O30: each write of R15 stores one word, and the views read back the bytes that word was joined from. -/
theorem indexViewWrites : Obligations.IndexViewWrites := by
  intro s v b
  have views : s.h.toNat = s.hx.toNat / 256 ∧ s.x.toNat = s.hx.toNat % 256 := ⟨h_toNat s, x_toNat s⟩
  exact ⟨views, rfl, setHX_h s v, setHX_x s v, rfl, setH_h s b, setH_x s b, rfl, setX_x s b, setX_h s b⟩

/-- Settles O31: H and X split the stored HX, so joining them gives it back in every state, whichever requests led there. -/
theorem indexAliasAlwaysHolds : Obligations.IndexAliasAlwaysHolds := by
  refine ⟨fun s => ?_, fun c m rs => ?_⟩
  · rw [← joinBytes_eq_shiftLeft_or, joinBytes_h_x]
  · exact (joinBytes_h_x (serveAll c m rs).core).symm

/-- Settles O29: the two forms of the write are R20's, and the laws of setFlag under a legal choice of masks say which bits of
the byte it keeps. -/
theorem setFlagChangesExactlyOneBit : Obligations.SetFlagChangesExactlyOneBit := by
  intro c s f legal
  refine ⟨rfl, rfl, fun b => ⟨rfl, ?written, ?others, ?outside, ?unnamed⟩⟩
  case written => rw [isFlag_setFlag legal, if_pos rfl]
  case others =>
    intro g hg
    rw [isFlag_setFlag legal, if_neg hg]
  case outside => exact ccrSetFlag_and_not_mask c s.ccr f b
  case unnamed => exact ccrSetFlag_and_unnamedBits c s.ccr f b

end Sys2Proof.Machine
end

section
/-! PROOF. Control transfer: the decoding and fetch of a branch-class opcode byte (spec/30_encoding.md R64, R71), BRA and BEQ
(spec/42_branch.md R100, R101) and the round trip of the branch arithmetic (R103). -/

namespace Sys2Proof.Machine

/-- A branch-class opcode byte takes the byte after it as its operand. -/
theorem decode_branchClass (c : Config) {opcode : Byte} (h : opcode ≤ 0x9F#8) (operand : Byte) :
    decode c [opcode, operand] = .ok (decodeBranch c opcode operand, []) := by
  obtain ⟨hlen, hmode⟩ := branchClass_opcode h
  simp [decode, hlen, decodeTwoBytes, hmode]

/-- A step at a branch-class opcode byte reads the operand byte, whatever the instruction then does (R69). -/
theorem step_branchClass {s : State} {opcode : Byte} (hop : memRead Config.specDefault s s.pc = opcode) (h : opcode ≤ 0x9F#8) :
    step s =
      exec (decodeBranch Config.specDefault opcode (memRead Config.specDefault s (s.pc + 1#16)))
        { s with pc := s.pc + 2#16 } := by
  obtain ⟨hlen, hmode⟩ := branchClass_opcode h
  simp [step_twoBytes hop hlen, decodeTwoBytes, hmode]

@[simp] theorem decodeBranch_opcBra (c : Config) (rel8 : Byte) : decodeBranch c c.opcBra rel8 = .braRel rel8 := if_pos rfl

theorem decodeBranch_opcBeq {c : Config} (hc : c.Legal) (rel8 : Byte) : decodeBranch c c.opcBeq rel8 = .beqRel rel8 := by
  simp [decodeBranch, hc.bra_ne_beq.symm]

/-- BRA's target as the source's case distinction: the magnitude of a negative offset is subtracted and wraps below 0. -/
theorem branch_pc_backward {rel8 : Byte} (h : rel8.msb = true) (s : State) :
    (branch rel8 s).pc.toNat =
      if 256 - rel8.toNat ≤ s.pc.toNat then s.pc.toNat - (256 - rel8.toNat)
      else 65536 - ((256 - rel8.toNat) - s.pc.toNat) := by
  have target := add_sext16_toNat s.pc rel8
  rw [msb_iff_toNat] at h
  rw [signed8, if_neg (by omega)] at target
  rw [branch_pc]
  split <;> omega

/-- The other case of the source: a non-negative offset is added and wraps past the top. -/
theorem branch_pc_forward {rel8 : Byte} (h : rel8.msb = false) (s : State) :
    (branch rel8 s).pc.toNat =
      if s.pc.toNat + rel8.toNat ≤ 65535 then s.pc.toNat + rel8.toNat else s.pc.toNat + rel8.toNat - 65536 := by
  have target := add_sext16_toNat s.pc rel8
  rw [Bool.eq_false_iff, ne_eq, msb_iff_toNat] at h
  rw [signed8, if_pos (by omega)] at target
  rw [branch_pc]
  split <;> omega

theorem branchIfZero_of_set {c : Config} {s : State} (h : s.isFlag c .zero = true) (rel8 : Byte) :
    branchIfZero c rel8 s = branch rel8 s := if_pos h

theorem branchIfZero_of_clear {c : Config} {s : State} (h : s.isFlag c .zero = false) (rel8 : Byte) :
    branchIfZero c rel8 s = s := if_neg (ne_true_of_eq_false h)

/-- Settles O13: the branch class decodes by its opcode byte, and the target is the sum modulo 65536, which the sign of the
offset splits into the two wrapping cases. -/
theorem braBranchesAlways : Obligations.BraBranchesAlways := by
  refine ⟨fun c rel8 legal => ?encoding, fun s hop => ?fetch, fun rel8 s => ?effect⟩
  case encoding => rw [decode_branchClass c legal.bra_branch_class, decodeBranch_opcBra]
  case fetch => rw [step_branchClass hop specDefault_legal.bra_branch_class, decodeBranch_opcBra]
  case effect =>
    exact ⟨branch rel8 s, exec_braRel rel8 s, rfl, add_sext16_toNat s.pc rel8,
      fun h => branch_pc_backward h s, fun h => branch_pc_forward h s⟩

/-- Settles O14: fetched like BRA; the stored Z flag chooses between BRA's effect and none. -/
theorem beqBranchesOnZero : Obligations.BeqBranchesOnZero := by
  refine ⟨fun c rel8 legal => ?encoding, fun s hop => ?fetch, fun rel8 s => ⟨fun hz => ?taken, fun hz => ?notTaken⟩⟩
  case encoding => rw [decode_branchClass c legal.beq_branch_class, decodeBranch_opcBeq legal]
  case fetch => rw [step_branchClass hop specDefault_legal.beq_branch_class, decodeBranch_opcBeq specDefault_legal]
  case taken =>
    have asBra : exec (.beqRel rel8) s = .next (branch rel8 s) := by rw [exec_beqRel, branchIfZero_of_set hz]
    exact ⟨asBra, branch rel8 s, asBra, rfl, add_sext16_toNat s.pc rel8⟩
  case notTaken => rw [exec_beqRel, branchIfZero_of_clear hz]

/-- An offset byte up to 127 is that displacement. -/
theorem signed8_ofNat_forward {n : Nat} (h : n ≤ 127) : signed8 (BitVec.ofNat 8 n) = n := by
  have hn : (BitVec.ofNat 8 n).toNat = n := by rw [BitVec.toNat_ofNat]; omega
  rw [signed8, hn, if_pos (by omega)]

/-- The two's complement of a magnitude from 1 to 128 is the backward displacement. -/
theorem signed8_ofNat_backward {n : Nat} (h1 : 1 ≤ n) (h2 : n ≤ 128) : signed8 (BitVec.ofNat 8 (256 - n)) = -(n : Int) := by
  have hn : (BitVec.ofNat 8 (256 - n)).toNat = 256 - n := by rw [BitVec.toNat_ofNat]; omega
  rw [signed8, hn, if_neg (by omega)]
  omega

theorem signed8_lt (v : Byte) : signed8 v < 128 := by
  have := v.isLt
  unfold signed8
  split <;> omega

/-- Two branches whose displacements cancel return the state, across the wrap of the address space too. -/
theorem branch_branch_of_opposite {rel back : Byte} (h : signed8 back = -signed8 rel) (s : State) :
    branch back (branch rel s) = s := by
  have hpc : s.pc + sext16 rel + sext16 back = s.pc := by
    have there := add_sext16_toNat s.pc rel
    have andBack := add_sext16_toNat (s.pc + sext16 rel) back
    have := s.pc.isLt
    apply BitVec.eq_of_toNat_eq
    omega
  show { s with pc := s.pc + sext16 rel + sext16 back } = s
  rw [hpc]

/-- Settles O37: the offset bytes N and 256 - N have opposite displacements, which cancel modulo 65536; no byte reaches 128. -/
theorem branchArithmeticRoundTrips : Obligations.BranchArithmeticRoundTrips := by
  refine ⟨fun p n => ?integers, fun n s h1 h2 => ?offsets, ?extreme, fun n rel8 h1 _ => ?tooFar⟩
  case integers =>
    have := p.isLt
    omega
  case offsets =>
    have there := signed8_ofNat_forward h2
    have back := signed8_ofNat_backward h1 (by omega : n ≤ 128)
    exact ⟨there, back, branch_branch_of_opposite (by rw [there, back]) s⟩
  case extreme => exact signed8_ofNat_backward (n := 128) (by decide) (by decide)
  case tooFar =>
    have := signed8_lt rel8
    omega

end Sys2Proof.Machine
end

section
/-! PROOF. The decoder and the encoder (spec/30_encoding.md R62 to R77): each inverts the other, what is refused, and the opcode
table. -/

namespace Sys2Proof

/-- An opcode byte that takes an operand byte is of format M with a valid mode nibble or of the branch class (R62, R65, R66). -/
theorem opcode_class {opcode : Byte} (h : decodeOneByte opcode = none) :
    (∃ ins, opcode = opcodeM immediateMode ins) ∨ (∃ ins, opcode = opcodeM directMode ins) ∨ opcode ≤ 0x9F#8 := by
  by_cases himm : modeNibble opcode = immediateMode
  · exact .inl ⟨insNibble opcode, by rw [← himm, opcodeM_nibbles]⟩
  by_cases hdir : modeNibble opcode = directMode
  · exact .inr (.inl ⟨insNibble opcode, by rw [← hdir, opcodeM_nibbles]⟩)
  · rw [decodeOneByte_eq] at h
    rw [modeNibble_eq_immediate] at himm
    rw [modeNibble_eq_direct] at hdir
    split at h
    · cases h
    · exact .inr (.inr (by bv_omega))

theorem decode_oneByte {opcode : Byte} {i : Instr} (c : Config) (h : decodeOneByte opcode = some i) (rest : List Byte) :
    decode c (opcode :: rest) = .ok (i, rest) := by
  simp [decode, h]

theorem decode_twoBytes {opcode : Byte} (c : Config) (h : decodeOneByte opcode = none) (operand : Byte) (rest : List Byte) :
    decode c (opcode :: operand :: rest) = .ok (decodeTwoBytes c opcode operand, rest) := by
  simp [decode, h]

@[simp] theorem decodeTwoBytes_immediate (c : Config) (ins : BitVec 4) (operand : Byte) :
    decodeTwoBytes c (opcodeM immediateMode ins) operand = decodeImmediate c (opcodeM immediateMode ins) operand := by
  simp [decodeTwoBytes]

@[simp] theorem decodeTwoBytes_direct (c : Config) (ins : BitVec 4) (operand : Byte) :
    decodeTwoBytes c (opcodeM directMode ins) operand = decodeDirect c (opcodeM directMode ins) operand := by
  simp [decodeTwoBytes, directMode_ne_immediateMode]

theorem decodeTwoBytes_branchClass (c : Config) {opcode : Byte} (h : opcode ≤ 0x9F#8) (operand : Byte) :
    decodeTwoBytes c opcode operand = decodeBranch c opcode operand := by
  simp [decodeTwoBytes, (branchClass_opcode h).2]

/-- A format M opcode byte with a valid mode nibble lies in 0xA0 to 0xBF (R66). -/
theorem opcodeM_range (ins : BitVec 4) :
    (0xA0#8 ≤ opcodeM immediateMode ins ∧ opcodeM immediateMode ins < 0xC0#8) ∧
      0xA0#8 ≤ opcodeM directMode ins ∧ opcodeM directMode ins < 0xC0#8 := by
  revert ins
  decide

/-- Well-formedness of the unknown-nibble row, through the decoder's name for the low nibble (R74). -/
theorem wf_unknownNibble_iff (c : Config) (opcode operand : Byte) :
    (Instr.unknownNibble opcode operand).wf c = true ↔
      0xA0#8 ≤ opcode ∧ opcode < 0xC0#8 ∧ insNibble opcode ≠ c.lnAdd ∧ insNibble opcode ≠ c.lnAnd ∧
        insNibble opcode ≠ c.lnLda ∧ insNibble opcode ≠ c.lnSta := by
  simp [Instr.wf, Config.selectsInstruction, insNibble, and_assoc]

theorem wf_badMode_iff (c : Config) (opcode : Byte) : (Instr.badMode opcode).wf c = true ↔ 0xC0#8 ≤ opcode := by
  simp [Instr.wf]

theorem wf_unknownBranchLow_iff (c : Config) (opcode operand : Byte) :
    (Instr.unknownBranchLow opcode operand).wf c = true ↔ opcode < 0x80#8 ∧ opcode ≠ c.opcBra ∧ opcode ≠ c.opcBeq := by
  simp [Instr.wf, Config.selectsBranch]

theorem wf_unknownBranchHigh_iff (c : Config) (opcode operand : Byte) :
    (Instr.unknownBranchHigh opcode operand).wf c = true ↔
      0x80#8 ≤ opcode ∧ opcode < 0xA0#8 ∧ opcode ≠ c.opcBra ∧ opcode ≠ c.opcBeq := by
  simp [Instr.wf, Config.selectsBranch, and_assoc]

/-- What the low nibble selects in immediate mode is well-formed and carries the two bytes it was decoded from. -/
theorem decodeImmediate_inverts (c : Config) (ins : BitVec 4) (operand : Byte) :
    (decodeImmediate c (opcodeM immediateMode ins) operand).wf c = true ∧
      encode c (decodeImmediate c (opcodeM immediateMode ins) operand) = [opcodeM immediateMode ins, operand] := by
  obtain ⟨⟨hlo, hhi⟩, -⟩ := opcodeM_range ins
  unfold decodeImmediate
  rw [insNibble_opcodeM]
  split_ifs with hadd hand hlda hsta
  · exact ⟨rfl, by rw [hadd]; rfl⟩
  · exact ⟨rfl, by rw [hand]; rfl⟩
  · exact ⟨rfl, by rw [hlda]; rfl⟩
  · exact ⟨rfl, by rw [hsta]; rfl⟩
  · refine ⟨(wf_unknownNibble_iff ..).mpr ?_, rfl⟩
    simp [hlo, hhi, hadd, hand, hlda, hsta]

/-- The same in direct mode. -/
theorem decodeDirect_inverts (c : Config) (ins : BitVec 4) (operand : Byte) :
    (decodeDirect c (opcodeM directMode ins) operand).wf c = true ∧
      encode c (decodeDirect c (opcodeM directMode ins) operand) = [opcodeM directMode ins, operand] := by
  obtain ⟨-, hlo, hhi⟩ := opcodeM_range ins
  unfold decodeDirect
  rw [insNibble_opcodeM]
  split_ifs with hadd hand hlda hsta
  · exact ⟨rfl, by rw [hadd]; rfl⟩
  · exact ⟨rfl, by rw [hand]; rfl⟩
  · exact ⟨rfl, by rw [hlda]; rfl⟩
  · exact ⟨rfl, by rw [hsta]; rfl⟩
  · refine ⟨(wf_unknownNibble_iff ..).mpr ?_, rfl⟩
    simp [hlo, hhi, hadd, hand, hlda, hsta]

/-- The same in the branch class, whose unknown opcodes are two rows (R75). -/
theorem decodeBranch_inverts (c : Config) {opcode : Byte} (h : opcode ≤ 0x9F#8) (operand : Byte) :
    (decodeBranch c opcode operand).wf c = true ∧ encode c (decodeBranch c opcode operand) = [opcode, operand] := by
  unfold decodeBranch
  split_ifs with hbra hbeq hlow
  · exact ⟨rfl, by rw [hbra]; rfl⟩
  · exact ⟨rfl, by rw [hbeq]; rfl⟩
  · exact ⟨(wf_unknownBranchLow_iff ..).mpr ⟨hlow, hbra, hbeq⟩, rfl⟩
  · exact ⟨(wf_unknownBranchHigh_iff ..).mpr ⟨by bv_omega, by bv_omega, hbra, hbeq⟩, rfl⟩

/-- Whatever two bytes decode to is well-formed and encodes back to them. -/
theorem decodeTwoBytes_inverts (c : Config) {opcode : Byte} (h : decodeOneByte opcode = none) (operand : Byte) :
    (decodeTwoBytes c opcode operand).wf c = true ∧ encode c (decodeTwoBytes c opcode operand) = [opcode, operand] := by
  rcases opcode_class h with ⟨ins, rfl⟩ | ⟨ins, rfl⟩ | hbranch
  · rw [decodeTwoBytes_immediate]
    exact decodeImmediate_inverts c ins operand
  · rw [decodeTwoBytes_direct]
    exact decodeDirect_inverts c ins operand
  · rw [decodeTwoBytes_branchClass c hbranch]
    exact decodeBranch_inverts c hbranch operand

/-- Settles O6: one byte decodes to the bad-mode row alone, and two bytes to what encodes back to them in each class. -/
theorem encodeInvertsDecode : Obligations.EncodeInvertsDecode := by
  intro c bytes i rest h
  cases bytes with
  | nil => cases h
  | cons opcode tail =>
    cases hlen : decodeOneByte opcode with
    | some j =>
      rw [decode_oneByte c hlen] at h
      cases h
      rw [decodeOneByte_eq] at hlen
      split at hlen
      · cases hlen
        exact ⟨(wf_badMode_iff ..).mpr ‹_›, rfl⟩
      · cases hlen
    | none =>
      cases tail with
      | nil => simp [decode, hlen] at h
      | cons operand rest' =>
        rw [decode_twoBytes c hlen] at h
        cases h
        obtain ⟨hwf, hencode⟩ := decodeTwoBytes_inverts c hlen operand
        exact ⟨hwf, by rw [hencode]; rfl⟩

/-- The decoder reads back a format M encoding in immediate mode by its low nibble. -/
theorem decode_opcodeM_immediate (c : Config) (ins : BitVec 4) (operand : Byte) (rest : List Byte) :
    decode c ([opcodeM immediateMode ins, operand] ++ rest) =
      .ok (decodeImmediate c (opcodeM immediateMode ins) operand, rest) := by
  rw [← decodeTwoBytes_immediate]
  exact decode_twoBytes c (decodeOneByte_opcodeM_immediate ins) operand rest

/-- The same in direct mode. -/
theorem decode_opcodeM_direct (c : Config) (ins : BitVec 4) (operand : Byte) (rest : List Byte) :
    decode c ([opcodeM directMode ins, operand] ++ rest) = .ok (decodeDirect c (opcodeM directMode ins) operand, rest) := by
  rw [← decodeTwoBytes_direct]
  exact decode_twoBytes c (decodeOneByte_opcodeM_direct ins) operand rest

/-- The same in the branch class, with every byte that follows. -/
theorem decode_branchClass_append (c : Config) {opcode : Byte} (h : opcode ≤ 0x9F#8) (operand : Byte) (rest : List Byte) :
    decode c ([opcode, operand] ++ rest) = .ok (decodeBranch c opcode operand, rest) := by
  rw [← decodeTwoBytes_branchClass c h]
  exact decode_twoBytes c (branchClass_opcode h).1 operand rest

/-- An opcode byte of the unknown-nibble row decodes to it in either mode (R74). -/
theorem decode_unknownNibble {c : Config} {opcode operand : Byte} (h : (Instr.unknownNibble opcode operand).wf c = true)
    (rest : List Byte) : decode c ([opcode, operand] ++ rest) = .ok (.unknownNibble opcode operand, rest) := by
  obtain ⟨hlo, hhi, hadd, hand, hlda, hsta⟩ := (wf_unknownNibble_iff ..).mp h
  have hlen : decodeOneByte opcode = none := by rw [decodeOneByte_eq, if_neg (by bv_omega)]
  rcases opcode_class hlen with ⟨ins, rfl⟩ | ⟨ins, rfl⟩ | hbranch
  · rw [decode_opcodeM_immediate]
    simp only [decodeImmediate, hadd, hand, hlda, hsta, if_false]
  · rw [decode_opcodeM_direct]
    simp only [decodeDirect, hadd, hand, hlda, hsta, if_false]
  · bv_omega

/-- Settles O5: the low nibbles and the two branch opcodes are distinct in a legal choice, so each encoding selects its own row. -/
theorem decodeInvertsEncode : Obligations.DecodeInvertsEncode := by
  intro c hc i hwf rest
  cases i with
  | addImm imm8 =>
    rw [encode, decode_opcodeM_immediate]
    simp [decodeImmediate]
  | addDir dir8 =>
    rw [encode, decode_opcodeM_direct]
    simp [decodeDirect]
  | andImm imm8 =>
    rw [encode, decode_opcodeM_immediate]
    simp [decodeImmediate, hc.add_ne_and.symm]
  | andDir dir8 =>
    rw [encode, decode_opcodeM_direct]
    simp [decodeDirect, hc.add_ne_and.symm]
  | ldaImm imm8 =>
    rw [encode, decode_opcodeM_immediate]
    simp [decodeImmediate, hc.add_ne_lda.symm, hc.and_ne_lda.symm]
  | ldaDir dir8 =>
    rw [encode, decode_opcodeM_direct]
    simp [decodeDirect, hc.add_ne_lda.symm, hc.and_ne_lda.symm]
  | staImm imm8 =>
    rw [encode, decode_opcodeM_immediate]
    simp [decodeImmediate, hc.add_ne_sta.symm, hc.and_ne_sta.symm, hc.lda_ne_sta.symm]
  | staDir dir8 =>
    rw [encode, decode_opcodeM_direct]
    simp [decodeDirect, hc.add_ne_sta.symm, hc.and_ne_sta.symm, hc.lda_ne_sta.symm]
  | braRel rel8 => rw [encode, decode_branchClass_append c hc.bra_branch_class, Machine.decodeBranch_opcBra]
  | beqRel rel8 => rw [encode, decode_branchClass_append c hc.beq_branch_class, Machine.decodeBranch_opcBeq hc]
  | unknownNibble opcode operand => exact decode_unknownNibble hwf rest
  | badMode opcode =>
    rw [wf_badMode_iff] at hwf
    exact decode_oneByte c (by rw [decodeOneByte_eq, if_pos hwf]) rest
  | unknownBranchLow opcode operand =>
    obtain ⟨hlow, hbra, hbeq⟩ := (wf_unknownBranchLow_iff ..).mp hwf
    rw [encode, decode_branchClass_append c (by bv_omega)]
    simp only [decodeBranch, hbra, hbeq, hlow, if_false, if_true]
  | unknownBranchHigh opcode operand =>
    obtain ⟨hlo, hhi, hbra, hbeq⟩ := (wf_unknownBranchHigh_iff ..).mp hwf
    have hlow : ¬ opcode < 0x80#8 := by bv_omega
    rw [encode, decode_branchClass_append c (by bv_omega)]
    simp only [decodeBranch, hbra, hbeq, hlow, if_false]

/-- Settles O8: an opcode byte below 0xC0 is the one that waits for an operand. -/
theorem decoderRefusesOnlyTruncatedInput : Obligations.DecoderRefusesOnlyTruncatedInput := by
  intro c bytes
  match bytes with
  | [] => exact ⟨fun _ => .inl rfl, fun _ => ⟨_, rfl⟩⟩
  | [opcode] =>
    by_cases h : 0xC0#8 ≤ opcode
    · have hlt : ¬ opcode < 0xC0#8 := by bv_omega
      simp [decode, decodeOneByte_eq, h, hlt]
    · have hlt : opcode < 0xC0#8 := by bv_omega
      simp [decode, decodeOneByte_eq, h, hlt]
  | opcode :: operand :: rest =>
    have haccepts : ∃ result, decode c (opcode :: operand :: rest) = .ok result := by
      cases hlen : decodeOneByte opcode with
      | some i => exact ⟨_, decode_oneByte c hlen _⟩
      | none => exact ⟨_, decode_twoBytes c hlen operand rest⟩
    obtain ⟨result, hresult⟩ := haccepts
    simp [hresult]

/-- Settles O4: the decoder evaluated at the seven words. -/
theorem specWordsDecodeAsWritten : Obligations.SpecWordsDecodeAsWritten := by
  unfold Obligations.SpecWordsDecodeAsWritten
  decide

/-- The operand byte plays no part in which row the decoder selects. -/
theorem mnemonic_decodeTwoBytes (c : Config) (opcode operand other : Byte) :
    (decodeTwoBytes c opcode operand).mnemonic = (decodeTwoBytes c opcode other).mnemonic := by
  unfold decodeTwoBytes decodeImmediate decodeDirect decodeBranch
  split_ifs <;> rfl

/-- A mask whose low byte is zero tests the opcode byte of a frame alone. -/
theorem joinBytes_and_of_low_zero {mask : Word} (h : mask &&& 0x00FF#16 = 0x0000#16) (opcode operand : Byte) :
    Machine.joinBytes opcode operand &&& mask = Machine.joinBytes opcode 0x00#8 &&& mask := by
  apply BitVec.eq_of_getLsbD_eq
  intro k hk
  rw [BitVec.getLsbD_and, BitVec.getLsbD_and, Machine.joinBytes, Machine.joinBytes, BitVec.getLsbD_append, BitVec.getLsbD_append]
  by_cases hlow : k < 8
  · have hbit := congrArg (fun v => v.getLsbD k) h
    have hone : (0x00FF#16).getLsbD k = true := by interval_cases k <;> rfl
    have hmask : mask.getLsbD k = false := by simpa [hone] using hbit
    simp [hmask]
  · simp [hlow]

/-- The operand byte plays no part in which row of the table matches: the mask of every row ends in a zero byte. -/
theorem ofFrame_joinBytes (opcode operand : Byte) :
    OpcodeRow.ofFrame (Machine.joinBytes opcode operand) = OpcodeRow.ofFrame (Machine.joinBytes opcode 0x00#8) := by
  have hmask : ∀ row ∈ opcodeTable, row.mask &&& 0x00FF#16 = 0x0000#16 := by decide
  refine List.find?_congr fun row hrow => ?_
  rw [joinBytes_and_of_low_zero (hmask row hrow)]

/-- The table and the decoder at every opcode byte, by evaluation, with the operand byte zero. -/
theorem ofFrame_mnemonic (opcode : Byte) :
    (OpcodeRow.ofFrame (Machine.joinBytes opcode 0x00#8)).map (·.mnemonic) = 
      some ((decodeOneByte opcode).getD (decodeTwoBytes Config.specDefault opcode 0x00#8)).mnemonic := by
  revert opcode
  decide

/-- Settles O7: neither the table nor the decoder looks at the operand byte to choose a row, and at each opcode byte they agree. -/
theorem decoderAgreesWithOpcodeTable : Obligations.DecoderAgreesWithOpcodeTable := by
  intro opcode operand
  obtain ⟨row, hrow, hname⟩ := Option.map_eq_some_iff.mp (ofFrame_mnemonic opcode)
  rw [← ofFrame_joinBytes opcode operand] at hrow
  cases hlen : decodeOneByte opcode with
  | some i =>
    rw [hlen] at hname
    exact ⟨i, _, row, decode_oneByte _ hlen _, hrow, hname.symm⟩
  | none =>
    rw [hlen] at hname
    exact ⟨_, [], row, decode_twoBytes _ hlen operand [], hrow,
      (mnemonic_decodeTwoBytes _ opcode operand 0x00#8).trans hname.symm⟩

end Sys2Proof
end

section
/-! PROOF. One step request (spec/30_encoding.md R60): it runs what the bytes at the program counter decode to. Everything a step
can do is said here twice, once for a step that completes and once for one that fails; later proofs cite the two. -/

namespace Sys2Proof.Machine

/-- Two bytes always decode (R62). -/
theorem decode_pair_total (c : Config) (opcode operand : Byte) : ∃ i rest, decode c [opcode, operand] = .ok (i, rest) := by
  cases hlen : decodeOneByte opcode with
  | some i => exact ⟨i, _, decode_oneByte c hlen _⟩
  | none => exact ⟨_, _, decode_twoBytes c hlen operand []⟩

/-- A step executes what the bytes at the program counter decode to, past the bytes of its encoding (R12, R60). -/
theorem step_eq_exec_of_decode {s : State} {i : Instr} {rest : List Byte}
    (h : decode Config.specDefault
      [memRead Config.specDefault s s.pc, memRead Config.specDefault s (s.pc + 1#16)] = .ok (i, rest)) :
    step s = exec i { s with pc := s.pc + BitVec.ofNat 16 (encode Config.specDefault i).length } := by
  cases hlen : decodeOneByte (memRead Config.specDefault s s.pc) with
  | some j =>
    rw [decode_oneByte _ hlen] at h
    cases h
    rw [step_oneByte rfl hlen]
    rw [decodeOneByte_eq] at hlen
    split at hlen <;> cases hlen
    rfl
  | none =>
    rw [decode_twoBytes _ hlen] at h
    cases h
    rw [step_twoBytes rfl hlen, (decodeTwoBytes_inverts _ hlen _).2]
    rfl

/-- Settles O3: two bytes always decode, to a well-formed instruction, and the step is its execution. -/
theorem stepRunsTheDecodedInstruction : Obligations.StepRunsTheDecodedInstruction := by
  intro s
  refine ⟨fun i rest h => step_eq_exec_of_decode h, ?_⟩
  obtain ⟨i, rest, h⟩ :=
    decode_pair_total Config.specDefault (memRead Config.specDefault s s.pc) (memRead Config.specDefault s (s.pc + 1#16))
  exact ⟨i, rest, h, (encodeInvertsDecode _ _ _ _ h).1⟩

/-- The instruction of a step, known by the bytes it encodes to. -/
theorem step_eq_exec (s : State) :
    ∃ i rest, i.wf Config.specDefault = true ∧
      encode Config.specDefault i ++ rest = [memRead Config.specDefault s s.pc, memRead Config.specDefault s (s.pc + 1#16)] ∧
      step s = exec i { s with pc := s.pc + BitVec.ofNat 16 (encode Config.specDefault i).length } := by
  obtain ⟨hexec, i, rest, hdecode, hwf⟩ := stepRunsTheDecodedInstruction s
  exact ⟨i, rest, hwf, (encodeInvertsDecode _ _ _ _ hdecode).2, hexec i rest hdecode⟩

/-- Everything a step that completes can do, with the opcode bytes that do it: nine of them, all two bytes long. -/
theorem step_next_cases {s t : State} (h : step s = .next t) :
    (memRead Config.specDefault s s.pc ∈ [0xAB#8, 0xBB#8] ∧
      ∃ data, t = aluAdd Config.specDefault data { s with pc := s.pc + 2#16 }) ∨
    (memRead Config.specDefault s s.pc ∈ [0xA4#8, 0xB4#8] ∧
      ∃ data, t = aluAnd Config.specDefault data { s with pc := s.pc + 2#16 }) ∨
    (memRead Config.specDefault s s.pc ∈ [0xA6#8, 0xB6#8] ∧
      ∃ data, t = loadAcc Config.specDefault data { s with pc := s.pc + 2#16 }) ∨
    (memRead Config.specDefault s s.pc = 0xB7#8 ∧
      t = storeAcc Config.specDefault (zext16 (memRead Config.specDefault s (s.pc + 1#16))) { s with pc := s.pc + 2#16 }) ∨
    (memRead Config.specDefault s s.pc = 0x20#8 ∧
      t = branch (memRead Config.specDefault s (s.pc + 1#16)) { s with pc := s.pc + 2#16 }) ∨
    (memRead Config.specDefault s s.pc = 0x27#8 ∧
      t = branchIfZero Config.specDefault (memRead Config.specDefault s (s.pc + 1#16)) { s with pc := s.pc + 2#16 }) := by
  obtain ⟨i, rest, -, hbytes, hstep⟩ := step_eq_exec s
  rw [hstep] at h
  cases i <;> cases h <;> injection hbytes with hop hrest <;> rw [← hop]
  case addImm => exact .inl ⟨by decide, _, rfl⟩
  case addDir => exact .inl ⟨by decide, _, rfl⟩
  case andImm => exact .inr (.inl ⟨by decide, _, rfl⟩)
  case andDir => exact .inr (.inl ⟨by decide, _, rfl⟩)
  case ldaImm => exact .inr (.inr (.inl ⟨by decide, _, rfl⟩))
  case ldaDir => exact .inr (.inr (.inl ⟨by decide, _, rfl⟩))
  all_goals
    injection hrest with hoperand
    subst hoperand
  case staDir => exact .inr (.inr (.inr (.inl ⟨by decide, rfl⟩)))
  case braRel => exact .inr (.inr (.inr (.inr (.inl ⟨rfl, rfl⟩))))
  case beqRel => exact .inr (.inr (.inr (.inr (.inr ⟨rfl, rfl⟩))))

/-- Everything a step that fails can do: the class of its opcode byte says the failure and how far the program counter moved
(R72 to R75). -/
theorem step_fault_cases {s : State} {r : Fault} (h : step s = .fault r) :
    (0xC0#8 ≤ memRead Config.specDefault s s.pc ∧
      r = .invalidAddressingMode (memRead Config.specDefault s s.pc) { s with pc := s.pc + 1#16 }) ∨
    (memRead Config.specDefault s s.pc = 0xA7#8 ∧
      r = .invalidAddressingMode (memRead Config.specDefault s s.pc) { s with pc := s.pc + 2#16 }) ∨
    (0xA0#8 ≤ memRead Config.specDefault s s.pc ∧ memRead Config.specDefault s s.pc < 0xC0#8 ∧
      insNibble (memRead Config.specDefault s s.pc) ∉ [0xB#4, 0x4#4, 0x6#4, 0x7#4] ∧
      r = .invalidOpcode (memRead Config.specDefault s s.pc) { s with pc := s.pc + 2#16 }) ∨
    (memRead Config.specDefault s s.pc < 0xA0#8 ∧ memRead Config.specDefault s s.pc ≠ 0x20#8 ∧
      memRead Config.specDefault s s.pc ≠ 0x27#8 ∧
      r = .invalidOpcode (memRead Config.specDefault s s.pc) { s with pc := s.pc + 2#16 }) := by
  obtain ⟨i, rest, hwf, hbytes, hstep⟩ := step_eq_exec s
  rw [hstep] at h
  cases i <;> cases h <;> injection hbytes with hop hrest <;> rw [← hop]
  case staImm => exact .inr (.inl ⟨rfl, rfl⟩)
  case badMode => exact .inl ⟨(wf_badMode_iff ..).mp hwf, rfl⟩
  case unknownNibble =>
    obtain ⟨hlo, hhi, hadd, hand, hlda, hsta⟩ := (wf_unknownNibble_iff ..).mp hwf
    refine .inr (.inr (.inl ⟨hlo, hhi, ?_, rfl⟩))
    simpa using ⟨hadd, hand, hlda, hsta⟩
  case unknownBranchLow =>
    obtain ⟨hlow, hbra, hbeq⟩ := (wf_unknownBranchLow_iff ..).mp hwf
    exact .inr (.inr (.inr ⟨by bv_omega, hbra, hbeq, rfl⟩))
  case unknownBranchHigh =>
    obtain ⟨-, hhi, hbra, hbeq⟩ := (wf_unknownBranchHigh_iff ..).mp hwf
    exact .inr (.inr (.inr ⟨hhi, hbra, hbeq, rfl⟩))

end Sys2Proof.Machine
end

section
/-! PROOF. Which opcode bytes complete and which fail (spec/30_encoding.md section 4, spec/60_exceptions.md R111, R112). -/

namespace Sys2Proof.Machine

/-- Settles O15: each of the five arms raises its failure in the state it is given. -/
theorem failingEncodingsStop : Obligations.FailingEncodingsStop := by
  intro opcode operand s
  exact ⟨exec_staImm operand s, exec_badMode opcode s, exec_unknownNibble opcode operand s,
    exec_unknownBranchLow opcode operand s, exec_unknownBranchHigh opcode operand s⟩

/-- An unknown branch-class opcode fails in either of its two rows (R75). -/
theorem exec_decodeBranch_unknown {opcode : Byte} (hbra : opcode ≠ Config.specDefault.opcBra)
    (hbeq : opcode ≠ Config.specDefault.opcBeq) (operand : Byte) (s : State) :
    exec (decodeBranch Config.specDefault opcode operand) s = .fault (.invalidOpcode opcode s) := by
  unfold decodeBranch
  rw [if_neg hbra, if_neg hbeq]
  split <;> rfl

/-- Settles O16: in each class of opcode bytes the decoder names the failing row, and its execution moves nothing more. -/
theorem failingCycleMovesOnlyThePc : Obligations.FailingCycleMovesOnlyThePc := by
  intro s opcode hop
  refine ⟨fun h => ?badMode, fun h => ?staImm, fun hlo hhi hnibble => ?unknownNibble, fun h hbra hbeq => ?unknownBranch⟩
  case badMode => rw [step_oneByte hop (by rw [decodeOneByte_eq, if_pos h]), exec_badMode]
  case staImm =>
    subst h
    rw [step_twoBytes hop (by decide)]
    rfl
  case unknownNibble =>
    subst hop
    simp only [List.mem_cons, List.not_mem_nil, or_false, not_or] at hnibble
    rw [step_eq_exec_of_decode (decode_unknownNibble ((wf_unknownNibble_iff ..).mpr ⟨hlo, hhi, hnibble⟩) [])]
    rfl
  case unknownBranch => rw [step_branchClass hop (by bv_omega), exec_decodeBranch_unknown hbra hbeq]

/-- Settles O17: a step that completes has one of the nine opcode bytes, and at each of them the decoder names an instruction
that completes. -/
theorem exactlyNineOpcodesComplete : Obligations.ExactlyNineOpcodesComplete := by
  intro s
  refine ⟨⟨fun ⟨t, h⟩ => ?only, fun h => ?each⟩, exec_ne_refused _ _⟩
  case only =>
    rcases step_next_cases h with ⟨hop, -⟩ | ⟨hop, -⟩ | ⟨hop, -⟩ | ⟨hop, -⟩ | ⟨hop, -⟩ | ⟨hop, -⟩
    · exact List.subset_def.mp (by decide) hop
    · exact List.subset_def.mp (by decide) hop
    · exact List.subset_def.mp (by decide) hop
    all_goals
      rw [hop]
      decide
  case each =>
    simp only [List.mem_cons, List.not_mem_nil, or_false] at h
    rcases h with hop | hop | hop | hop | hop | hop | hop | hop | hop <;> exact ⟨_, step_twoBytes hop (by decide)⟩

end Sys2Proof.Machine
end

section
/-! PROOF. The program counter after a step (spec/10_state.md R12): past the two bytes, or at a taken branch's target; the end of a
run (spec/70_reset_and_hazards.md R146). -/

namespace Sys2Proof.Machine

/-- The next cycle is a branch that is taken (R100, R101). -/
def BranchTaken (s : State) : Prop :=
  memRead Config.specDefault s s.pc = Config.specDefault.opcBra ∨
    (memRead Config.specDefault s s.pc = Config.specDefault.opcBeq ∧ s.isFlag Config.specDefault .zero = true)

theorem step_of_branchTaken {s : State} (h : BranchTaken s) :
    step s = .next (branch (memRead Config.specDefault s (s.pc + 1#16)) { s with pc := s.pc + 2#16 }) := by
  rcases h with hop | ⟨hop, hz⟩
  · rw [step_branchClass hop specDefault_legal.bra_branch_class, decodeBranch_opcBra, exec_braRel]
  · rw [step_branchClass hop specDefault_legal.beq_branch_class, decodeBranch_opcBeq specDefault_legal, exec_beqRel]
    exact congrArg _ (branchIfZero_of_set (s := { s with pc := s.pc + 2#16 }) hz _)

theorem step_pc_of_not_branchTaken {s t : State} (h : step s = .next t) (hn : ¬ BranchTaken s) : t.pc = s.pc + 2#16 := by
  rcases step_next_cases h with ⟨-, -, rfl⟩ | ⟨-, -, rfl⟩ | ⟨-, -, rfl⟩ | ⟨-, rfl⟩ | ⟨hop, -⟩ | ⟨hop, rfl⟩
  · rfl
  · rfl
  · rfl
  · rw [storeAcc_pc]
  · exact absurd (.inl hop) hn
  · have hz : s.isFlag Config.specDefault .zero = false := by
      rw [Bool.eq_false_iff]
      exact fun hz => hn (.inr ⟨hop, hz⟩)
    exact congrArg State.pc (branchIfZero_of_clear (s := { s with pc := s.pc + 2#16 }) hz _)

/-- Two on is two on as integers modulo 65536. -/
theorem add_two_toNat (p : Word) : ((p + 2#16).toNat : Int) = ((p.toNat : Int) + 2) % 65536 := by
  rw [BitVec.toNat_add]
  push_cast
  rfl

/-- Settles O23: the offset is added exactly when the branch is taken. -/
theorem completedCycleSetsThePc : Obligations.CompletedCycleSetsThePc := by
  intro s t h
  by_cases htaken : BranchTaken s
  · rw [step_of_branchTaken htaken] at h
    injection h with h
    subst h
    have htarget := add_sext16_toNat (s.pc + 2#16) (memRead Config.specDefault s (s.pc + 1#16))
    rw [add_two_toNat] at htarget
    unfold BranchTaken at htaken
    rw [if_pos htaken, branch_pc, htarget]
    omega
  · rw [step_pc_of_not_branchTaken h htaken, add_two_toNat]
    unfold BranchTaken at htaken
    rw [if_neg htaken, add_zero]

/-- The offset that leads back to the branch's own opcode byte (R102). -/
theorem two_add_sext16_eq_iff (p : Word) (rel8 : Byte) : p + 2#16 + sext16 rel8 = p ↔ rel8 = 0xFE#8 := by
  have hoffset : sext16 rel8 = 0xFFFE#16 ↔ rel8 = 0xFE#8 := by
    revert rel8
    decide
  rw [← hoffset]
  constructor <;> intro h <;> bv_omega

/-- Settles O24: only a taken branch can leave the program counter where it was, and only with the offset back to itself. -/
theorem onlyATakenSelfBranchChangesNothing : Obligations.OnlyATakenSelfBranchChangesNothing := by
  intro s
  constructor
  · intro h
    by_cases htaken : BranchTaken s
    · rw [step_of_branchTaken htaken] at h
      injection h with h
      exact ⟨htaken, (two_add_sext16_eq_iff s.pc _).mp (congrArg State.pc h)⟩
    · have hpc := step_pc_of_not_branchTaken h htaken
      bv_omega
  · rintro ⟨htaken, hoffset⟩
    have hpc := (two_add_sext16_eq_iff s.pc _).mpr hoffset
    rw [step_of_branchTaken htaken]
    show Host.Outcome.next { s with pc := s.pc + 2#16 + sext16 _ } = _
    rw [hpc]

/-- Settles O25: the step of an ended run is the self branch, so each step of the run returns the state. -/
theorem endedRunStaysForEver : Obligations.EndedRunStaysForEver := by
  intro s hended n
  have hstep : step s = .next s := by
    simp only [State.ended, Bool.and_eq_true, beq_iff_eq] at hended
    obtain ⟨hop, hoffset⟩ := hended
    exact (onlyATakenSelfBranchChangesNothing s).mpr ⟨.inl hop, hoffset⟩
  induction n with
  | zero => rfl
  | succ n ih => exact (run_succ_next n hstep).trans ih

/-- The assembler's offset byte leads from past the branch to its target (R78). -/
theorem add_sext16_branchOffset {addr target : Word} {rel8 : Byte} (h : branchOffset addr target = some rel8) :
    addr + 2#16 + sext16 rel8 = target := by
  unfold branchOffset at h
  simp only at h
  split at h
  case isFalse => cases h
  case isTrue hreach =>
    cases h
    have hsigned : (BitVec.ofInt 8 (target - (addr + 2#16)).toInt).toInt = (target - (addr + 2#16)).toInt := by
      rw [BitVec.toInt_ofInt, Int.bmod_eq_of_le] <;> omega
    have hsext : sext16 (BitVec.ofInt 8 (target - (addr + 2#16)).toInt) = target - (addr + 2#16) := by
      apply BitVec.eq_of_toInt_eq
      rw [sext16, BitVec.toInt_signExtend_of_le (by decide), hsigned]
    rw [hsext]
    bv_omega

/-- Settles O47: BRA at the program counter is taken, and the assembled offset leads to the target. -/
theorem assembledBranchReachesItsTarget : Obligations.AssembledBranchReachesItsTarget := by
  intro s target rel8 hassembled hop hoperand
  have htarget := add_sext16_branchOffset hassembled
  rw [step_of_branchTaken (.inl hop), hoperand]
  show Host.Outcome.next { s with pc := s.pc + 2#16 + sext16 rel8 } = _
  rw [htarget]

end Sys2Proof.Machine
end

section
/-! PROOF. The cycle pseudocode (spec/30_encoding.md R60) by the class of its opcode byte, for every choice of parameters; that the
decoding and dispatching step equals it; and the step request after a failure (spec/60_exceptions.md R115 to R117). -/

namespace Sys2Proof.Machine

/-- The cycle at a bad mode nibble reads one byte (R72). -/
theorem cycle_badMode {c : Config} {s : State} (h : 0xC0#8 ≤ memRead c s s.pc) :
    cycle c s = (.invalidAddressingMode (memRead c s s.pc), (fetch8 c s).2) := by
  have himm : ¬ modeNibble (memRead c s s.pc) = 0xA#4 := by
    rw [show (0xA#4 : BitVec 4) = immediateMode from rfl, modeNibble_eq_immediate]
    bv_omega
  have hdir : ¬ modeNibble (memRead c s s.pc) = 0xB#4 := by
    rw [show (0xB#4 : BitVec 4) = directMode from rfl, modeNibble_eq_direct]
    bv_omega
  have hbearing : 0xA0#8 ≤ memRead c s s.pc := by bv_omega
  simp only [cycle, hbearing, himm, hdir, if_true, if_false, fetch8]

/-- The cycle at a format M opcode byte in immediate mode. -/
theorem cycle_immediate {c : Config} {s : State} {ins : BitVec 4} (h : memRead c s s.pc = opcodeM immediateMode ins) :
    cycle c s =
      cycleSelect c (opcodeM immediateMode ins) (.immediate (fetch8 c (fetch8 c s).2).1) (fetch8 c (fetch8 c s).2).2 := by
  have hbearing : 0xA0#8 ≤ opcodeM immediateMode ins := (opcodeM_range ins).1.1
  have himm : modeNibble (opcodeM immediateMode ins) = 0xA#4 := modeNibble_opcodeM ..
  simp only [cycle, h, hbearing, himm, if_true, fetch8]

/-- The cycle at a format M opcode byte in direct mode. -/
theorem cycle_direct {c : Config} {s : State} {ins : BitVec 4} (h : memRead c s s.pc = opcodeM directMode ins) :
    cycle c s =
      cycleSelect c (opcodeM directMode ins) (.direct (fetch8 c (fetch8 c s).2).1) (fetch8 c (fetch8 c s).2).2 := by
  have hbearing : 0xA0#8 ≤ opcodeM directMode ins := (opcodeM_range ins).2.1
  have hdir : modeNibble (opcodeM directMode ins) = 0xB#4 := modeNibble_opcodeM ..
  have himm : ¬ (0xB#4 : BitVec 4) = 0xA#4 := by decide
  simp only [cycle, h, hbearing, hdir, himm, if_true, if_false, fetch8]

/-- The cycle at a branch-class opcode byte. -/
theorem cycle_branchClass {c : Config} {s : State} (h : memRead c s s.pc ≤ 0x9F#8) :
    cycle c s =
      if memRead c s s.pc = c.opcBra then (.ok, branch (fetch8 c (fetch8 c s).2).1 (fetch8 c (fetch8 c s).2).2)
      else if memRead c s s.pc = c.opcBeq then (.ok, branchIfZero c (fetch8 c (fetch8 c s).2).1 (fetch8 c (fetch8 c s).2).2)
      else (.invalidOpcode (memRead c s s.pc), (fetch8 c (fetch8 c s).2).2) := by
  have hbearing : ¬ 0xA0#8 ≤ memRead c s s.pc := by bv_omega
  simp only [cycle, hbearing, if_false, fetch8]

/-- Selecting by the low nibble in immediate mode is executing what it decodes to (R70, R73). -/
theorem outcomeOf_cycleSelect_immediate (ins : BitVec 4) (imm8 : Byte) (s : State) :
    outcomeOf (cycleSelect Config.specDefault (opcodeM immediateMode ins) (.immediate imm8) s) =
      exec (decodeImmediate Config.specDefault (opcodeM immediateMode ins) imm8) s := by
  unfold cycleSelect decodeImmediate
  simp only [insNibble_opcodeM]
  split_ifs with hadd hand hlda hsta
  · rfl
  · rfl
  · rfl
  · rw [hsta]
    rfl
  · rfl

/-- The same in direct mode, where STA stores (R91). -/
theorem outcomeOf_cycleSelect_direct (ins : BitVec 4) (dir8 : Byte) (s : State) :
    outcomeOf (cycleSelect Config.specDefault (opcodeM directMode ins) (.direct dir8) s) =
      exec (decodeDirect Config.specDefault (opcodeM directMode ins) dir8) s := by
  unfold cycleSelect decodeDirect
  simp only [insNibble_opcodeM]
  split_ifs <;> rfl

/-- At the spec's setting of PORTA_MASKED_READ fetching one byte moves the program counter alone. -/
theorem fetch8_specDefault (s : State) :
    fetch8 Config.specDefault s = (memRead Config.specDefault s s.pc, { s with pc := s.pc + 1#16 }) := rfl

/-- Settles O18: in each class of opcode bytes the pseudocode does what the decoded instruction does. -/
theorem stepRefinesTheCyclePseudocode : Obligations.StepRefinesTheCyclePseudocode := by
  intro s
  have hfetch : fetch8 Config.specDefault (fetch8 Config.specDefault s).2 =
      (memRead Config.specDefault s (s.pc + 1#16), { s with pc := s.pc + 2#16 }) := by
    rw [fetch8_specDefault, fetch8_specDefault, BitVec.add_assoc]
    rfl
  cases hlen : decodeOneByte (memRead Config.specDefault s s.pc) with
  | some i =>
    rw [step_oneByte rfl hlen]
    rw [decodeOneByte_eq] at hlen
    split at hlen <;> cases hlen
    rw [cycle_badMode ‹_›]
    rfl
  | none =>
    rw [step_twoBytes rfl hlen]
    rcases opcode_class hlen with ⟨ins, hop⟩ | ⟨ins, hop⟩ | hop
    · rw [cycle_immediate hop, hop, decodeTwoBytes_immediate, outcomeOf_cycleSelect_immediate, hfetch]
    · rw [cycle_direct hop, hop, decodeTwoBytes_direct, outcomeOf_cycleSelect_direct, hfetch]
    · rw [cycle_branchClass hop, decodeTwoBytes_branchClass _ hop, hfetch]
      unfold decodeBranch
      split_ifs <;> rfl

/-- The state a cycle leaves when its outcome is a failure is the one the fault carries (R117). -/
theorem snd_eq_after_of_outcomeOf {p : StepResult × State} {r : Fault} (h : outcomeOf p = .fault r) : p.2 = r.after := by
  obtain ⟨result, t⟩ := p
  cases result <;> cases h <;> rfl

/-- A failure reports the opcode byte and leaves the program counter one or two bytes on, by R72 to R75. -/
theorem step_fault_eq {s : State} {r : Fault} (h : step s = .fault r) :
    r.opcode = memRead Config.specDefault s s.pc ∧
      r.after = { s with pc := s.pc + if 0xC0#8 ≤ memRead Config.specDefault s s.pc then 1#16 else 2#16 } := by
  rcases step_fault_cases h with ⟨hop, rfl⟩ | ⟨hop, rfl⟩ | ⟨-, hop, -, rfl⟩ | ⟨hop, -, -, rfl⟩
  · rw [if_pos hop]
    exact ⟨rfl, rfl⟩
  all_goals
    rw [if_neg (by bv_omega)]
    exact ⟨rfl, rfl⟩

/-- Settles O26: the failing request leaves the state the fault carries, and the request after it is a step from there. -/
theorem nextStepAfterAFailureRunsAtTheAdvancedPc : Obligations.NextStepAfterAFailureRunsAtTheAdvancedPc := by
  intro m r h
  obtain ⟨hopcode, hafter⟩ := step_fault_eq h
  have hcycle : outcomeOf (cycle Config.specDefault m.core) = .fault r := by rw [← stepRefinesTheCyclePseudocode, h]
  refine ⟨hopcode, by rw [hopcode, hafter], ⟨(cycle Config.specDefault m.core).1, ?_, ?_⟩, fun i rest hdecode => ?_⟩
  · rw [← snd_eq_after_of_outcomeOf hcycle]
    rfl
  · rw [← snd_eq_after_of_outcomeOf hcycle, ← hcycle]
  · have hmem : m.core.mem = r.after.mem := by rw [hafter]
    rw [memRead_specDefault_congr hmem, memRead_specDefault_congr hmem] at hdecode
    refine ⟨(cycle Config.specDefault r.after).1, (cycle Config.specDefault r.after).2, rfl, ?_⟩
    have hstep := step_eq_exec_of_decode hdecode
    rw [stepRefinesTheCyclePseudocode] at hstep
    refine hstep.trans (congrArg (exec i) ?_)
    rw [hafter]

end Sys2Proof.Machine
end

section
/-! PROOF. Memory under steps and host requests: the canonical form is kept, and a step changes a byte only as an STA
(spec/20_memory.md sections 1 and 4). -/

namespace Sys2Proof.Machine

/-- The bytes a CPU byte write leaves depend on the bytes before it alone. -/
theorem memWrite_mem_congr {s t : State} (c : Config) (h : s.mem = t.mem) (addr : Word) (v : Byte) :
    (memWrite c s addr v).mem = (memWrite c t addr v).mem := by
  unfold memWrite
  split_ifs <;> simp [h]

/-- Everything a step that completes can leave in memory: what was there, or STA's CPU byte write. -/
theorem step_mem_cases {s t : State} (h : step s = .next t) :
    t.mem = s.mem ∨
      (memRead Config.specDefault s s.pc = 0xB7#8 ∧
        t.mem = (memWrite Config.specDefault s (zext16 (memRead Config.specDefault s (s.pc + 1#16))) s.a).mem) := by
  rcases step_next_cases h with ⟨-, _, rfl⟩ | ⟨-, _, rfl⟩ | ⟨-, _, rfl⟩ | ⟨hop, rfl⟩ | ⟨-, rfl⟩ | ⟨-, rfl⟩
  · exact .inl rfl
  · exact .inl rfl
  · exact .inl rfl
  · rw [storeAcc_mem]
    refine .inr ⟨hop, memWrite_mem_congr _ ?_ _ _⟩
    rfl
  · exact .inl rfl
  · unfold branchIfZero
    split <;> exact .inl rfl

/-- Settles O19: a completed step leaves memory as it was or makes one CPU byte write, and a failing one leaves it. -/
theorem stepKeepsTheInvariant : Obligations.StepKeepsTheInvariant := by
  intro s hs
  refine ⟨fun t h => ?_, fun r h => ?_⟩
  · rcases step_mem_cases h with hmem | ⟨-, hmem⟩ <;> rw [State.Inv, hmem]
    · exact hs
    · exact memWrite_wf hs
  · rw [(step_fault_eq h).2]
    exact hs

/-- Settles O2: the empty memory is in canonical form. -/
theorem resetMeetsTheInvariant : Obligations.ResetMeetsTheInvariant := reset_memory_wf

@[simp] theorem serveLoad_core (image : Image) (m : System) :
    (serveLoad image m).2.core = (loadRecords image.records m.core).2 := by
  unfold serveLoad
  split <;> rename_i heq <;> rw [heq]

/-- Everything a reload can leave in memory (R132). -/
theorem serveReload_mem (m : System) :
    (serveReload m).2.core.mem = m.core.mem ∨
      ∃ image : Image, (serveReload m).2.core.mem = (loadRecords image.records m.core).2.mem := by
  unfold serveReload
  split
  · exact .inl rfl
  · rename_i image _
    refine .inr ⟨image, ?_⟩
    split <;> rename_i heq <;> rw [heq]

@[simp] theorem writeRegister_mem (s : State) (r : Register) (v : Nat) : (s.writeRegister r v).mem = s.mem := by
  cases r <;> rfl

@[simp] theorem setRegisterFile_mem (s : State) (file : RegisterFile) : (s.setRegisterFile file).mem = s.mem := rfl

@[simp] theorem afterHostReadByte_mem (c : Config) (s : State) (addr : Int) : (afterHostReadByte c s addr).mem = s.mem := by
  unfold afterHostReadByte
  split <;> simp

@[simp] theorem afterHostReadWord_mem (c : Config) (s : State) (addr : Word) : (afterHostReadWord c s addr).mem = s.mem := by
  simp [afterHostReadWord]

/-- Everything a host byte write can do: nothing, or one CPU byte write (R37, R54). -/
theorem hostWriteByte_cases (c : Config) (s : State) (addr : Int) (v : Byte) :
    hostWriteByte c s addr v = s ∨ ∃ a : Word, hostWriteByte c s addr v = memWrite c s a v := by
  unfold hostWriteByte
  split
  · exact .inr ⟨_, rfl⟩
  · exact .inl rfl

/-- A host word write that is a move is two CPU byte writes (R39). -/
theorem hostWriteWord_eq_some {c : Config} {s t : State} {addr v : Word} (h : hostWriteWord c s addr v = some t) :
    t = memWrite c (memWrite c s addr (hi8 v)) (addr + 1#16) (lo8 v) := by
  unfold hostWriteWord at h
  split at h <;> cases h
  rfl

/-- An input bit is one raw write of the port-A data byte (R51). -/
theorem setHardwareInputBit_eq (c : Config) (name : InputBit) (value : Bool) (s : State) :
    ∃ v, setHardwareInputBit c name value s = s.setStore c.portAData v := by
  unfold setHardwareInputBit
  cases value <;> exact ⟨_, rfl⟩

/-- Everything a request can leave in memory: what was there, one or two CPU byte writes, the reset memory, a loaded image, or
the port-A data byte written raw. -/
theorem serve_mem_cases (c : Config) (m : System) (r : Request) :
    (serve c m r).2.core.mem = m.core.mem ∨
    (∃ a v, (serve c m r).2.core.mem = (memWrite c m.core a v).mem) ∨
    (∃ a v b w, (serve c m r).2.core.mem = (memWrite c (memWrite c m.core a v) b w).mem) ∨
    (r = .reset ∧ (serve c m r).2.core.mem = State.reset.mem) ∨
    ((r = .reload ∨ ∃ image, r = .load image) ∧
      ∃ records, (serve c m r).2.core.mem = (loadRecords records m.core).2.mem) ∨
    ((∃ name value, r = .setHardwareInputBit name value) ∧
      ∃ v, (serve c m r).2.core.mem = (m.core.setStore c.portAData v).mem) := by
  cases r with
  | step =>
    rcases cycle_mem c m.core with h | ⟨addr, h⟩
    · exact .inl h
    · exact .inr (.inl ⟨addr, _, h⟩)
  | reset => exact .inr (.inr (.inr (.inl ⟨rfl, rfl⟩)))
  | reload =>
    rcases serveReload_mem m with h | ⟨image, h⟩
    · exact .inl h
    · exact .inr (.inr (.inr (.inr (.inl ⟨.inl rfl, _, h⟩))))
  | load image =>
    exact .inr (.inr (.inr (.inr (.inl ⟨.inr ⟨image, rfl⟩, _, congrArg State.mem (serveLoad_core image m)⟩))))
  | writeRegister r v => exact .inl (writeRegister_mem ..)
  | readByte addr => exact .inl (afterHostReadByte_mem ..)
  | writeByte v addr =>
    rcases hostWriteByte_cases c m.core addr v with h | ⟨a, h⟩
    · exact .inl (congrArg State.mem h)
    · exact .inr (.inl ⟨a, v, congrArg State.mem h⟩)
  | readWord addr =>
    left
    simp only [serve]
    split
    · exact afterHostReadWord_mem ..
    · rfl
  | writeWord addr v =>
    simp only [serve]
    split
    · rename_i t h
      exact .inr (.inr (.inl ⟨_, _, _, _, congrArg State.mem (hostWriteWord_eq_some h)⟩))
    · exact .inl rfl
  | setHardwareInputBit name value =>
    obtain ⟨v, h⟩ := setHardwareInputBit_eq c name value m.core
    exact .inr (.inr (.inr (.inr (.inr ⟨⟨name, value, rfl⟩, v, congrArg State.mem h⟩))))
  | readRegister | readRegisterFile | writeRegisterFile | isFlag | setFlag => exact .inl rfl

/-- Settles O20: whatever a request leaves in memory, each way of writing it keeps the canonical form. -/
theorem everyRequestKeepsTheInvariant : Obligations.EveryRequestKeepsTheInvariant := by
  intro c m r hm
  rcases serve_mem_cases c m r with
    h | ⟨a, v, h⟩ | ⟨a, v, b, w, h⟩ | ⟨-, h⟩ | ⟨-, records, h⟩ | ⟨-, v, h⟩ <;> rw [State.Inv, h]
  · exact hm
  · exact memWrite_wf hm
  · exact memWrite_wf (memWrite_wf hm)
  · exact reset_memory_wf
  · exact loadRecords_wf hm
  · exact memory_wf_set hm c.portAData.isLt

/-- A CPU byte write leaves the port-A data byte (R36). -/
@[simp] theorem memWrite_store_portAData (c : Config) (s : State) (addr : Word) (v : Byte) :
    (memWrite c s addr v).store c.portAData = s.store c.portAData := by
  rcases memWrite_cases c s addr v with h | ⟨hne, h⟩ <;> rw [h]
  exact store_setStore_other _ _ hne.symm

/-- Settles O46: every other request leaves memory or makes CPU byte writes, which the port-A data register rejects. -/
theorem onlyHostInputsChangeThePortByte : Obligations.OnlyHostInputsChangeThePortByte := by
  intro c m r hchanged
  rcases serve_mem_cases c m r with
    h | ⟨a, v, h⟩ | ⟨a, v, b, w, h⟩ | ⟨hr, -⟩ | ⟨hr | ⟨image, hr⟩, -⟩ | ⟨⟨name, value, hr⟩, -⟩
  · exact absurd (store_congr h _) hchanged
  · exact absurd (by rw [store_congr h, memWrite_store_portAData]) hchanged
  · exact absurd (by rw [store_congr h, memWrite_store_portAData, memWrite_store_portAData]) hchanged
  · exact .inl hr
  · exact .inr (.inl hr)
  · exact .inr (.inr (.inl ⟨image, hr⟩))
  · exact .inr (.inr (.inr ⟨name, value, hr⟩))

/-- Settles O22: the one write a step can make is STA's, and it changes the byte at its address alone. -/
theorem onlyStaChangesMemory : Obligations.OnlyStaChangesMemory := by
  intro s t addr h hchanged
  rcases step_mem_cases h with hmem | ⟨hop, hmem⟩
  · exact absurd (store_congr hmem addr) hchanged
  rw [store_congr hmem] at hchanged ⊢
  rcases memWrite_cases Config.specDefault s (zext16 (memRead Config.specDefault s (s.pc + 1#16))) s.a with hw | ⟨hne, hw⟩ <;>
    rw [hw] at hchanged ⊢
  · exact absurd rfl hchanged
  · by_cases haddr : addr = zext16 (memRead Config.specDefault s (s.pc + 1#16))
    · subst haddr
      exact ⟨hop, rfl, hne, store_setStore_same ..⟩
    · exact absurd (store_setStore_other s s.a haddr) hchanged

end Sys2Proof.Machine
end

section
/-! PROOF. What no program changes, however long it runs (spec/41_load_store.md R94, spec/10_state.md R23, R24). -/

namespace Sys2Proof.Machine

/-- What a program leaves as it was: SP, HX, every CCR bit but the five flags it may write, the stored port-A data byte and every
byte above 0x00FF. -/
def ProgramFrame (s t : State) : Prop :=
  SameHostRegisters s t ∧
  t.ccr &&& ~~~(programFlagBits Config.specDefault) = s.ccr &&& ~~~(programFlagBits Config.specDefault) ∧
  t.store Config.specDefault.portAData = s.store Config.specDefault.portAData ∧
  ∀ addr : Word, 0x00FF#16 < addr → t.store addr = s.store addr

theorem programFrame_refl (s : State) : ProgramFrame s s := ⟨⟨rfl, rfl⟩, rfl, rfl, fun _ _ => rfl⟩

theorem programFrame_trans {s t u : State} (h : ProgramFrame s t) (h' : ProgramFrame t u) : ProgramFrame s u := by
  obtain ⟨⟨hsp, hhx⟩, hccr, hport, hhigh⟩ := h
  obtain ⟨⟨hsp', hhx'⟩, hccr', hport', hhigh'⟩ := h'
  exact ⟨⟨hsp'.trans hsp, hhx'.trans hhx⟩, hccr'.trans hccr, hport'.trans hport,
    fun addr haddr => (hhigh' addr haddr).trans (hhigh addr haddr)⟩

/-- The bits outside the five program flags meet the mask of none of the five. -/
theorem notProgramFlagBits_and_mask (c : Config) {f : Flag} (hf : f ≠ .interrupt) :
    ~~~(programFlagBits c) &&& c.mask f = 0x00#8 := by
  unfold programFlagBits
  ext i
  cases f <;> simp [Config.mask] at hf ⊢ <;> tauto

/-- Writing one of the five program flags leaves every bit outside them. -/
theorem ccrSetFlag_and_notProgramFlagBits (c : Config) {f : Flag} (hf : f ≠ .interrupt) (ccr : Byte) (b : Bool) :
    ccrSetFlag c ccr f b &&& ~~~(programFlagBits c) = ccr &&& ~~~(programFlagBits c) :=
  ccrSetFlag_and_disjoint (notProgramFlagBits_and_mask c hf) _ _

/-- A completed step leaves SP and HX. -/
theorem step_sameHostRegisters {s t : State} (h : step s = .next t) : SameHostRegisters s t := by
  rcases step_next_cases h with ⟨-, _, rfl⟩ | ⟨-, _, rfl⟩ | ⟨-, _, rfl⟩ | ⟨-, rfl⟩ | ⟨-, rfl⟩ | ⟨-, rfl⟩
  · exact ⟨rfl, rfl⟩
  · exact ⟨rfl, rfl⟩
  · exact ⟨rfl, rfl⟩
  · exact ⟨storeAcc_sp .., storeAcc_hx ..⟩
  · exact ⟨rfl, rfl⟩
  · unfold branchIfZero
    split <;> exact ⟨rfl, rfl⟩

/-- A completed step writes no CCR bit outside the five program flags (R24). -/
theorem step_ccr_and_notProgramFlagBits {s t : State} (h : step s = .next t) :
    t.ccr &&& ~~~(programFlagBits Config.specDefault) = s.ccr &&& ~~~(programFlagBits Config.specDefault) := by
  rcases step_next_cases h with ⟨-, _, rfl⟩ | ⟨-, _, rfl⟩ | ⟨-, _, rfl⟩ | ⟨-, rfl⟩ | ⟨-, rfl⟩ | ⟨-, rfl⟩
  · simp [ccrSetFlag_and_notProgramFlagBits]
  · simp [ccrSetFlag_and_notProgramFlagBits]
  · simp [ccrSetFlag_and_notProgramFlagBits]
  · simp [ccrSetFlag_and_notProgramFlagBits]
  · rfl
  · unfold branchIfZero
    split <;> rfl

/-- One completed step keeps the frame of programs: its one write is STA's, to an address below 0x0100 (R92). -/
theorem step_programFrame {s t : State} (h : step s = .next t) : ProgramFrame s t := by
  have hregisters := step_sameHostRegisters h
  have hccr := step_ccr_and_notProgramFlagBits h
  refine ⟨hregisters, hccr, ?_, fun addr haddr => ?_⟩
  · by_contra hchanged
    exact (onlyStaChangesMemory s t _ h hchanged).2.2.1 rfl
  · by_contra hchanged
    have hdirect := (onlyStaChangesMemory s t addr h hchanged).2.1
    have hlow : addr ≤ 0x00FF#16 := hdirect ▸ zext16_le _
    bv_omega

/-- Settles O21, by induction on the number of steps: each step of the run keeps the frame. -/
theorem programsChangeOnlyTheirOwnState : Obligations.ProgramsChangeOnlyTheirOwnState := by
  intro n
  induction n with
  | zero =>
    intro s t h
    cases h
    exact programFrame_refl s
  | succ n ih =>
    intro s t h
    rcases step_next_or_fault s with ⟨u, hu⟩ | ⟨r, hr⟩
    · rw [RunsTo, run_succ_next n hu] at h
      exact programFrame_trans (step_programFrame hu) (ih u t h)
    · rw [RunsTo, run_succ_fault n hr] at h
      cases h

end Sys2Proof.Machine
end

section
/-! PROOF. The arithmetic, logic, load and store instructions: result, flags and frame (spec/40_arithmetic_logic.md R80 to R84,
spec/41_load_store.md R90, R91). -/

namespace Sys2Proof.Machine

/-- The low nibble of a byte as a number. -/
theorem toNat_and_lowNibble (v : Byte) : (v &&& 0x0F#8).toNat = v.toNat % 16 := by
  rw [BitVec.toNat_and]
  exact Nat.and_two_pow_sub_one_eq_mod v.toNat 4

/-- H of ADD as a statement about the low nibbles (R80). -/
theorem addHalf_iff (a data : Byte) : addHalf a data = true ↔ 0x0F < a.toNat % 16 + data.toNat % 16 := by
  rw [addHalf, decide_eq_true_iff, toNat_and_lowNibble, toNat_and_lowNibble]

/-- C of ADD as a statement about the exact sum (R80). -/
theorem addCarry_iff (a data : Byte) : addCarry a data = true ↔ 0xFF < a.toNat + data.toNat := decide_eq_true_iff

/-- V of ADD as a statement about the signs (R80). -/
theorem addOverflow_iff (a data : Byte) : addOverflow a data = true ↔ a.msb = data.msb ∧ (a + data).msb ≠ a.msb := by
  simp [addOverflow]

/-- A flag after ADD: the five that R80 assigns, and I as it was. -/
theorem aluAdd_isFlag {c : Config} (hc : c.Legal) (data : Byte) (s : State) (f : Flag) :
    (aluAdd c data s).isFlag c f =
      match f with
      | .carry => addCarry s.a data
      | .zero => s.a + data == 0x00#8
      | .negative => (s.a + data).msb
      | .half => addHalf s.a data
      | .overflow => addOverflow s.a data
      | .interrupt => s.isFlag c .interrupt := by
  simp only [isFlag_eq, aluAdd_ccr, ccrFlag_ccrSetFlag hc]
  cases f <;> rfl

/-- Settles O9: both modes run one ADD, whose flags are the assignments of R80. -/
theorem addAssignsResultAndFiveFlags : Obligations.AddAssignsResultAndFiveFlags := by
  intro i data s hi
  have hexec : exec i s = .next (aluAdd Config.specDefault data s) := by
    rcases hi with rfl | ⟨dir8, rfl, rfl⟩
    · exact exec_addImm data s
    · exact exec_addDir dir8 s
  have hflag := aluAdd_isFlag specDefault_legal data s
  refine ⟨_, hexec, BitVec.toNat_add .., ?carry, ?overflow, ?half, ?negative, ?zero, ⟨?interrupt, ?unnamed⟩, aluAdd_pc ..,
    ⟨aluAdd_sp .., aluAdd_hx ..⟩, store_congr (aluAdd_mem ..)⟩
  case carry =>
    rw [hflag]
    exact addCarry_iff s.a data
  case overflow =>
    rw [hflag]
    exact addOverflow_iff s.a data
  case half =>
    rw [hflag]
    exact addHalf_iff s.a data
  case negative =>
    rw [hflag]
    exact msb_iff_toNat _
  case zero =>
    rw [hflag]
    exact beq_iff_eq
  case interrupt => simp [hflag]
  case unnamed => simp

/-- N, Z and V after V is cleared and N and Z are assigned (R82). -/
theorem logicFlags_setNZ {c : Config} (hc : c.Legal) (v : Byte) (s : State) :
    LogicFlags c v (setNZ c v (s.setFlag c .overflow false)) := by
  simp [LogicFlags, setNZ, isFlag_setFlag hc, ← msb_iff_toNat]

/-- V cleared and N and Z assigned leave every other flag and the unnamed bits. -/
theorem sameFlags_setNZ {c : Config} (hc : c.Legal) (v : Byte) {s t : State} (h : t.ccr = s.ccr) :
    SameFlags c [.carry, .half, .interrupt] s (setNZ c v (t.setFlag c .overflow false)) := by
  simp [SameFlags, setNZ, isFlag_setFlag hc, isFlag_eq, h]

/-- Settles O10: both modes run one AND, which ends in SetNZ of the result. -/
theorem andAssignsResultAndLogicFlags : Obligations.AndAssignsResultAndLogicFlags := by
  intro i data s hi
  have hexec : exec i s = .next (aluAnd Config.specDefault data s) := by
    rcases hi with rfl | ⟨dir8, rfl, rfl⟩
    · exact exec_andImm data s
    · exact exec_andDir dir8 s
  exact ⟨_, hexec, fun n => BitVec.getLsbD_and, logicFlags_setNZ specDefault_legal _ _, sameFlags_setNZ specDefault_legal _ rfl,
    aluAnd_pc .., ⟨aluAnd_sp .., aluAnd_hx ..⟩, store_congr (aluAnd_mem ..)⟩

/-- Settles O11: both modes run one LDA, which ends in SetNZ of the loaded byte. -/
theorem ldaLoadsAndAssignsLogicFlags : Obligations.LdaLoadsAndAssignsLogicFlags := by
  intro i data s hi
  have hexec : exec i s = .next (loadAcc Config.specDefault data s) := by
    rcases hi with rfl | ⟨dir8, rfl, rfl⟩
    · exact exec_ldaImm data s
    · exact exec_ldaDir dir8 s
  exact ⟨_, hexec, rfl, logicFlags_setNZ specDefault_legal _ _, sameFlags_setNZ specDefault_legal _ rfl,
    loadAcc_pc .., ⟨loadAcc_sp .., loadAcc_hx ..⟩, store_congr (loadAcc_mem ..)⟩

/-- With the default parameters a written byte is read back raw, but at the port-A data register (R36). -/
theorem memWrite_store_same (s : State) (addr : Word) (v : Byte) :
    (memWrite Config.specDefault s addr v).store addr =
      if addr = Config.specDefault.portAData then s.store addr else v := by
  rw [memWrite_specDefault]
  split
  · rfl
  · exact store_setStore_same s addr v

/-- A CPU byte write leaves every byte outside its address (R36). -/
theorem memWrite_frame (c : Config) (s : State) (addr : Word) (v : Byte) :
    SameBytesExcept addr s (memWrite c s addr v) := by
  intro b hb
  rcases memWrite_cases c s addr v with h | ⟨-, h⟩ <;> rw [h]
  exact store_setStore_other s v hb

/-- Settles O12: STA is one CPU byte write of A and SetNZ of A. -/
theorem staStoresAndAssignsLogicFlags : Obligations.StaStoresAndAssignsLogicFlags := by
  intro dir8 s
  refine ⟨_, exec_staDir dir8 s, ?_, fun b hb => ?_, storeAcc_a .., logicFlags_setNZ specDefault_legal _ _,
    sameFlags_setNZ specDefault_legal _ (memWrite_ccr ..), storeAcc_pc .., storeAcc_sp .., storeAcc_hx ..⟩
  · rw [storeAcc_store]
    exact memWrite_store_same s (effectiveAddress dir8) s.a
  · rw [storeAcc_store]
    exact memWrite_frame _ s (effectiveAddress dir8) s.a b hb

/-- Settles O32: the write is rejected at one address by R36 and raw at every other, and the STA that is rejected runs on. -/
theorem portADataIsReadOnlyToTheCpu : Obligations.PortADataIsReadOnlyToTheCpu := by
  intro s addr v
  refine ⟨by rw [memWrite_specDefault, if_pos rfl], fun hne => ?written, fun dir8 hport => ?rejected⟩
  case written => exact ⟨memWrite_eq .., by rw [memWrite_store_same, if_neg hne], memWrite_frame _ s addr v⟩
  case rejected =>
    obtain ⟨t, hexec, hat, houtside, ha, hflags, -⟩ := staStoresAndAssignsLogicFlags dir8 s
    refine ⟨t, hexec, fun b => ?_, ha, hflags⟩
    by_cases hb : b = effectiveAddress dir8
    · rw [hb, hat, if_pos hport]
    · exact houtside b hb

/-- With the default parameters a read away from the port-A data register is raw (R34). -/
theorem memRead_eq_store (s : State) {addr : Word} (h : addr ≠ Config.specDefault.portAData) :
    memRead Config.specDefault s addr = s.store addr := by
  rw [memRead_specDefault, if_neg h]

/-- Settles O34: the fetch and the gated read after an STA look at the bytes it left. -/
theorem storeIsSeenByTheNextFetch : Obligations.StoreIsSeenByTheNextFetch := by
  intro s dir8 hne
  obtain ⟨t, hexec, hat, houtside, -⟩ := staStoresAndAssignsLogicFlags dir8 s
  rw [if_neg hne] at hat
  refine ⟨t, hexec, ?_, fun hddr => ?_⟩
  · rw [fetch8_specDefault]
    exact (memRead_eq_store { t with pc := effectiveAddress dir8 } hne).trans hat
  · rw [hddr] at hat houtside
    rw [memRead_specDefault, if_pos rfl, hat, houtside _ specDefault_legal.data_ne_ddr]

/-- V of ADD is the verdict of the exact signed sum (R83). -/
theorem addOverflow_iff_signed (a data : Byte) :
    addOverflow a data = true ↔ signed8 a + signed8 data < -128 ∨ 127 < signed8 a + signed8 data := by
  have ha := a.isLt
  have hdata := data.isLt
  have hsum : (a + data).toNat = (a.toNat + data.toNat) % 256 := BitVec.toNat_add ..
  simp only [addOverflow_iff, ne_eq, BitVec.msb_eq_decide, hsum, decide_eq_decide]
  unfold signed8
  split <;> split <;> omega

/-- H of ADD is bit 4 of the exclusive or of the operands and the result: the carry into that bit (R84). -/
theorem addHalf_eq_bit4 (a data : Byte) : addHalf a data = (a ^^^ data ^^^ (a + data)).getLsbD 4 := by
  have hcarry : addHalf a data = BitVec.carry 4 a data false := by
    rw [Bool.eq_iff_iff, addHalf_iff]
    simp only [BitVec.carry, Nat.reducePow, Bool.toNat_false, add_zero, ge_iff_le, decide_eq_true_eq]
    omega
  rw [hcarry, BitVec.getLsbD_xor, BitVec.getLsbD_xor, BitVec.getLsbD_add (by decide)]
  cases a.getLsbD 4 <;> cases data.getLsbD 4 <;> simp

/-- Settles O38: each verdict of ADD is arithmetic on the exact sums of the two bytes. -/
theorem addVerdictsAreThoseOfTheExactSums : Obligations.AddVerdictsAreThoseOfTheExactSums := by
  intro a data
  refine ⟨addOverflow_iff_signed a data, ?carry, ?half⟩
  case carry =>
    have hsum : (a + data).toNat = (a.toNat + data.toNat) % 256 := BitVec.toNat_add ..
    rw [addCarry_iff, hsum]
    omega
  case half =>
    have hbit : ∀ v : Byte, v.getLsbD 4 = true ↔ v &&& 0x10#8 ≠ 0x00#8 := by decide
    rw [addHalf_eq_bit4, hbit]

end Sys2Proof.Machine
end

section
/-! PROOF. What a step reads (spec/10_state.md R23, R24, spec/20_memory.md R34): two states that agree on it step in lockstep. -/

namespace Sys2Proof.Machine

/-- Two outcomes of one kind whose states, next or left by a failure, are related; failures report one opcode byte. -/
def Lockstep (R : State → State → Prop) : Outcome → Outcome → Prop
  | .next s, .next t => R s t
  | .fault r, .fault q => q.opcode = r.opcode ∧ R r.after q.after
  | _, _ => False

theorem lockstep_next {R : State → State → Prop} {o o' : Outcome} (h : Lockstep R o o') {s : State} (ho : o = .next s) :
    ∃ t, o' = .next t ∧ R s t := by
  subst ho
  cases o' with
  | next t => exact ⟨t, rfl, h⟩
  | fault q => cases h
  | refused q => cases h

theorem lockstep_fault {R : State → State → Prop} {o o' : Outcome} (h : Lockstep R o o') {r : Fault} (ho : o = .fault r) :
    ∃ q, o' = .fault q ∧ q.opcode = r.opcode ∧ R r.after q.after := by
  subst ho
  cases o' with
  | next t => cases h
  | fault q => exact ⟨q, rfl, h⟩
  | refused q => cases h

/-- States that read the same two bytes at one program counter run one instruction, and move it on alike. -/
theorem step_eq_exec_of_same_bytes {s t : State}
    (hop : memRead Config.specDefault t t.pc = memRead Config.specDefault s s.pc)
    (hoperand : memRead Config.specDefault t (t.pc + 1#16) = memRead Config.specDefault s (s.pc + 1#16)) :
    ∃ i n, step s = exec i { s with pc := s.pc + n } ∧ step t = exec i { t with pc := t.pc + n } := by
  obtain ⟨i, rest, h⟩ :=
    decode_pair_total Config.specDefault (memRead Config.specDefault s s.pc) (memRead Config.specDefault s (s.pc + 1#16))
  exact ⟨i, _, step_eq_exec_of_decode h, step_eq_exec_of_decode (by rw [hop, hoperand, h])⟩

/-- Z after SetNZ is the zero test of its value, whatever stood there before (R82). -/
theorem isFlag_zero_setNZ {c : Config} (hc : c.Legal) (v : Byte) (s : State) : (setNZ c v s).isFlag c .zero = (v == 0x00#8) := by
  rw [setNZ, isFlag_setFlag hc, if_pos rfl]

/-- Agreement on A, PC, memory and Z survives every instruction. -/
theorem exec_agreeOnInputs (i : Instr) {s t : State} (h : AgreeOnInputs Config.specDefault s t) :
    Lockstep (AgreeOnInputs Config.specDefault) (exec i s) (exec i t) := by
  obtain ⟨ha, hpc, hmem, hz⟩ := h
  have hread (addr : Word) := memRead_specDefault_congr hmem addr
  have hadd (data : Byte) :
      AgreeOnInputs Config.specDefault (aluAdd Config.specDefault data s) (aluAdd Config.specDefault data t) :=
    ⟨by simp [ha], by simp [hpc], by simp [hmem], by simp only [aluAdd_isFlag specDefault_legal, ha]⟩
  have hand (data : Byte) :
      AgreeOnInputs Config.specDefault (aluAnd Config.specDefault data s) (aluAnd Config.specDefault data t) := by
    refine ⟨by simp [ha], by simp [hpc], by simp [hmem], ?_⟩
    simp only [aluAnd, isFlag_zero_setNZ specDefault_legal, ha]
  have hload (data : Byte) :
      AgreeOnInputs Config.specDefault (loadAcc Config.specDefault data s) (loadAcc Config.specDefault data t) := by
    refine ⟨rfl, by simp [hpc], by simp [hmem], ?_⟩
    simp only [loadAcc, isFlag_zero_setNZ specDefault_legal]
  have hbranch (rel8 : Byte) : AgreeOnInputs Config.specDefault (branch rel8 s) (branch rel8 t) :=
    ⟨ha, congrArg (· + sext16 rel8) hpc, hmem, hz⟩
  cases i with
  | addImm imm8 => exact hadd imm8
  | addDir dir8 =>
    rw [exec_addDir, exec_addDir, hread]
    exact hadd _
  | andImm imm8 => exact hand imm8
  | andDir dir8 =>
    rw [exec_andDir, exec_andDir, hread]
    exact hand _
  | ldaImm imm8 => exact hload imm8
  | ldaDir dir8 =>
    rw [exec_ldaDir, exec_ldaDir, hread]
    exact hload _
  | staDir dir8 =>
    refine ⟨by simp [ha], by simp [hpc], ?_, ?_⟩
    · rw [storeAcc_mem, storeAcc_mem, ha, memWrite_mem_congr _ hmem]
    · rw [storeAcc, storeAcc, isFlag_zero_setNZ specDefault_legal, isFlag_zero_setNZ specDefault_legal, ha]
  | braRel rel8 => exact hbranch rel8
  | beqRel rel8 =>
    rw [exec_beqRel, exec_beqRel, branchIfZero, branchIfZero, hz]
    split
    · exact hbranch rel8
    · exact ⟨ha, hpc, hmem, hz⟩
  | staImm | unknownNibble | badMode | unknownBranchLow | unknownBranchHigh => exact ⟨rfl, ha, hpc, hmem, hz⟩

/-- One step keeps the agreement: the same two bytes are fetched, so the same instruction runs. -/
theorem step_agreeOnInputs {s t : State} (h : AgreeOnInputs Config.specDefault s t) :
    Lockstep (AgreeOnInputs Config.specDefault) (step s) (step t) := by
  obtain ⟨ha, hpc, hmem, hz⟩ := h
  obtain ⟨i, n, hs, ht⟩ := step_eq_exec_of_same_bytes (s := s) (t := t)
    (by rw [hpc, memRead_specDefault_congr hmem]) (by rw [hpc, memRead_specDefault_congr hmem])
  rw [hs, ht]
  exact exec_agreeOnInputs i ⟨ha, congrArg (· + n) hpc, hmem, hz⟩

/-- Settles O27, by induction on the number of steps: agreeing states step in lockstep. -/
theorem runsReadOnlyAPcMemoryAndZ : Obligations.RunsReadOnlyAPcMemoryAndZ := by
  intro n
  induction n with
  | zero =>
    intro s t h
    refine ⟨fun s' hrun => ?_, fun ⟨r, hrun⟩ => by cases hrun⟩
    cases hrun
    exact ⟨t, rfl, h⟩
  | succ n ih =>
    intro s t h
    have hlock := step_agreeOnInputs h
    rcases step_next_or_fault s with ⟨u, hu⟩ | ⟨r, hr⟩
    · obtain ⟨v, hv, huv⟩ := lockstep_next hlock hu
      simp only [RunsTo, Faulted, run_succ_next n hu, run_succ_next n hv]
      exact ih u v huv
    · obtain ⟨q, hq, -⟩ := lockstep_fault hlock hr
      simp only [RunsTo, Faulted, run_succ_fault n hr, run_succ_fault n hq]
      exact ⟨fun _ => nofun, fun _ => ⟨q, rfl⟩⟩

/-- While the gate is closed, states that agree but for the port-A data byte read alike at every address. -/
theorem memRead_of_agreeButPort {s t : State} (hgate : s.store Config.specDefault.portADdr ≠ 0x00#8)
    (h : SameBytesExcept Config.specDefault.portAData s t) (addr : Word) :
    memRead Config.specDefault t addr = memRead Config.specDefault s addr := by
  have hgate' : t.store Config.specDefault.portADdr ≠ 0x00#8 := by rwa [h _ specDefault_legal.data_ne_ddr.symm]
  rw [memRead_specDefault, memRead_specDefault, if_neg hgate, if_neg hgate']
  split
  · rfl
  · exact h addr ‹_›

/-- Agreement of bytes looks at the memories alone. -/
theorem sameBytesExcept_congr {addr : Word} {s t s' t' : State} (hs : s'.mem = s.mem) (ht : t'.mem = t.mem)
    (h : SameBytesExcept addr s t) : SameBytesExcept addr s' t' := by
  intro b hb
  rw [store_congr hs, store_congr ht, h b hb]

/-- A CPU byte write of one value keeps the agreement of the bytes. -/
theorem memWrite_keeps_sameBytesExcept {s t : State} (h : SameBytesExcept Config.specDefault.portAData s t) (addr : Word) (v : Byte) :
    SameBytesExcept Config.specDefault.portAData (memWrite Config.specDefault s addr v) (memWrite Config.specDefault t addr v) := by
  intro b hb
  rw [memWrite_specDefault, memWrite_specDefault]
  split
  · exact h b hb
  · by_cases hba : b = addr
    · rw [hba, store_setStore_same, store_setStore_same]
    · rw [store_setStore_other _ _ hba, store_setStore_other _ _ hba, h b hb]

/-- Agreement but for the port-A data byte survives every instruction that reads through the closed gate. -/
theorem exec_agreeButPort (i : Instr) {s t : State} (hgate : s.store Config.specDefault.portADdr ≠ 0x00#8)
    (h : AgreeButPort Config.specDefault s t) : Lockstep (AgreeButPort Config.specDefault) (exec i s) (exec i t) := by
  obtain ⟨ha, hpc, ⟨hsp, hhx⟩, hccr, hdraws, hbytes⟩ := h
  have hread := memRead_of_agreeButPort hgate hbytes
  have hadd (data : Byte) :
      AgreeButPort Config.specDefault (aluAdd Config.specDefault data s) (aluAdd Config.specDefault data t) := by
    refine ⟨?_, ?_, ⟨?_, ?_⟩, ?_, ?_, sameBytesExcept_congr (aluAdd_mem ..) (aluAdd_mem ..) hbytes⟩ <;>
      simp [ha, hpc, hsp, hhx, hccr, hdraws]
  have hand (data : Byte) :
      AgreeButPort Config.specDefault (aluAnd Config.specDefault data s) (aluAnd Config.specDefault data t) := by
    refine ⟨?_, ?_, ⟨?_, ?_⟩, ?_, ?_, sameBytesExcept_congr (aluAnd_mem ..) (aluAnd_mem ..) hbytes⟩ <;>
      simp [ha, hpc, hsp, hhx, hccr, hdraws]
  have hload (data : Byte) :
      AgreeButPort Config.specDefault (loadAcc Config.specDefault data s) (loadAcc Config.specDefault data t) := by
    refine ⟨?_, ?_, ⟨?_, ?_⟩, ?_, ?_, sameBytesExcept_congr (loadAcc_mem ..) (loadAcc_mem ..) hbytes⟩ <;>
      simp [hpc, hsp, hhx, hccr, hdraws]
  have hbranch (rel8 : Byte) : AgreeButPort Config.specDefault (branch rel8 s) (branch rel8 t) :=
    ⟨ha, by simp [hpc], ⟨hsp, hhx⟩, hccr, hdraws, hbytes⟩
  cases i with
  | addImm imm8 => exact hadd imm8
  | addDir dir8 =>
    rw [exec_addDir, exec_addDir, hread]
    exact hadd _
  | andImm imm8 => exact hand imm8
  | andDir dir8 =>
    rw [exec_andDir, exec_andDir, hread]
    exact hand _
  | ldaImm imm8 => exact hload imm8
  | ldaDir dir8 =>
    rw [exec_ldaDir, exec_ldaDir, hread]
    exact hload _
  | staDir dir8 =>
    refine ⟨by simp [ha], by simp [hpc], ⟨by simp [hsp], by simp [hhx]⟩, by simp [ha, hccr], by simp [hdraws],
      fun b hb => ?_⟩
    rw [storeAcc_store, storeAcc_store, ha]
    exact memWrite_keeps_sameBytesExcept hbytes _ _ b hb
  | braRel rel8 => exact hbranch rel8
  | beqRel rel8 =>
    rw [exec_beqRel, exec_beqRel, branchIfZero, branchIfZero, isFlag_eq, isFlag_eq, hccr]
    split
    · exact hbranch rel8
    · exact ⟨ha, hpc, ⟨hsp, hhx⟩, hccr, hdraws, hbytes⟩
  | staImm | unknownNibble | badMode | unknownBranchLow | unknownBranchHigh =>
    exact ⟨rfl, ha, hpc, ⟨hsp, hhx⟩, hccr, hdraws, hbytes⟩

/-- Settles O28: the closed gate gives both states the same two instruction bytes, and the instruction keeps the agreement. -/
theorem closedGateHidesThePortByte : Obligations.ClosedGateHidesThePortByte := by
  intro s t hgate h
  obtain ⟨ha, hpc, hregisters, hccr, hdraws, hbytes⟩ := h
  have hread := memRead_of_agreeButPort hgate hbytes
  obtain ⟨i, n, hs, ht⟩ := step_eq_exec_of_same_bytes (s := s) (t := t) (by rw [hpc, hread]) (by rw [hpc, hread])
  have hlock : Lockstep (AgreeButPort Config.specDefault) (step s) (step t) := by
    rw [hs, ht]
    exact exec_agreeButPort i hgate ⟨ha, congrArg (· + n) hpc, hregisters, hccr, hdraws, hbytes⟩
  exact ⟨fun s' hs' => lockstep_next hlock hs', fun r hr => lockstep_fault hlock hr⟩

end Sys2Proof.Machine
end

section
/-! PROOF. The address space (spec/20_memory.md): regions, the gated port, fetch, host byte and word accesses, and masked reads
under PORTA_MASKED_READ. -/

namespace Sys2Proof.Machine

/-- Settles O33: with the default parameters the one gated address is the port-A data register. -/
theorem portADataReadIsGated : Obligations.PortADataReadIsGated := by
  intro s
  refine ⟨fun hopen => ?_, fun hclosed => ?_, fun addr hne => memRead_eq_store s hne⟩
  · rw [memRead_specDefault, if_pos rfl, if_pos hopen]
  · rw [memRead_specDefault, if_pos rfl, if_neg hclosed]

/-- Settles O35: the fetched byte is the read at the program counter, and the operand byte is fetched after it. -/
theorem fetchReadsAByteAndAdvances : Obligations.FetchReadsAByteAndAdvances := by
  intro c s
  refine ⟨rfl, ?frame, fun hpolicy => ?draws, BitVec.toNat_add .., fun hport => ?gated, fun hlen => ?operand⟩
  case frame => rw [fetch8, afterRead_eq]
  case draws => rw [fetch8_draws, afterRead_of_ne_any hpolicy]
  case gated =>
    show memRead c s s.pc = _
    rw [hport, memRead, if_pos rfl]
  case operand => rw [fetchInstr, hlen]

/-- Settles O36: the bounds of R31 as numbers, and the write-through and raw read away from the port-A data register. -/
theorem regionsAreAlikeButForThePort : Obligations.RegionsAreAlikeButForThePort := by
  refine ⟨fun addr => ?bounds, fun c legal => ⟨if_pos legal.data_in_hardware, if_pos legal.ddr_in_hardware⟩,
    fun s addr v hne => ⟨?readBack, memWrite_frame _ s addr v⟩⟩
  case bounds =>
    unfold regionOf
    split_ifs with hhardware hram <;> simp only [true_iff, false_iff] <;> bv_omega
  case readBack => rw [memRead_eq_store _ hne, memWrite_store_same, if_neg hne]

/-- Settles O39: the two halves of a word lie at two addresses, neither the port-A data register, so each is written and read
raw. -/
theorem wordAccessIsBigEndian : Obligations.WordAccessIsBigEndian := by
  refine ⟨fun s v => ⟨if_pos rfl, if_pos rfl⟩, fun s addr v htop hport => ?_⟩
  have hnext : addr + 1#16 ≠ Config.specDefault.portAData := by
    show addr + 1#16 ≠ 0x0000#16
    bv_omega
  have hsep : addr ≠ addr + 1#16 := by bv_omega
  have hhigh : (memWrite Config.specDefault (memWrite Config.specDefault s addr (hi8 v)) (addr + 1#16) (lo8 v)).store addr =
      hi8 v := by
    rw [memWrite_frame _ _ _ _ _ hsep, memWrite_store_same, if_neg hport]
  have hlow : (memWrite Config.specDefault (memWrite Config.specDefault s addr (hi8 v)) (addr + 1#16) (lo8 v)).store
      (addr + 1#16) = lo8 v := by
    rw [memWrite_store_same, if_neg hnext]
  refine ⟨_, if_neg htop, hhigh, hlow, fun b hb hb' => ?frame, ?readBack⟩
  case frame => rw [memWrite_frame _ _ _ _ b hb', memWrite_frame _ _ _ _ b hb]
  case readBack =>
    rw [hostReadWord, if_neg htop, afterRead_specDefault, memRead_eq_store _ hport, memRead_eq_store _ hnext, hhigh, hlow,
      joinBytes_hi8_lo8]

theorem inRange_iff (addr : Int) : inRange addr = true ↔ 0 ≤ addr ∧ addr < 65536 := by simp [inRange]

/-- Settles O40: the range check of R37 is the one thing a host byte access adds to the primitives. -/
theorem hostByteAccessToleratesAnyAddress : Obligations.HostByteAccessToleratesAnyAddress := by
  intro c s v
  refine ⟨fun addr hout => ?outside, fun addr => ?inside⟩
  case outside =>
    have hrange : ¬ inRange addr = true := by
      rw [inRange_iff]
      omega
    exact ⟨if_neg hrange, if_neg hrange⟩
  case inside =>
    have hrange : inRange addr.toNat = true := by
      have := addr.isLt
      rw [inRange_iff]
      omega
    rw [hostReadByte, hostWriteByte, if_pos hrange, if_pos hrange, BitVec.ofInt_natCast, BitVec.ofNat_toNat, BitVec.setWidth_eq]
    exact ⟨rfl, rfl⟩

/-- Bytes placed at the program counter, the gate opened first if one of them is the port-A data byte (log entry 16). -/
theorem placeForFetch_eq (c : Config) (s : State) (opcode operand : Byte) :
    ∃ u : State, u = { s with mem := u.mem } ∧
      ((s.pc = c.portAData ∨ s.pc + 1#16 = c.portAData) → u.store c.portADdr = 0x00#8) ∧
      (∀ addr, addr ≠ c.portADdr → u.store addr = s.store addr) ∧
      s.placeForFetch c opcode operand = (u.setStore s.pc opcode).setStore (s.pc + 1#16) operand := by
  by_cases hgated : s.pc = c.portAData ∨ s.pc + 1#16 = c.portAData
  · refine ⟨s.setStore c.portADdr 0x00#8, rfl, fun _ => store_setStore_same .., fun addr h => store_setStore_other _ _ h, ?_⟩
    simp only [State.placeForFetch, if_pos hgated]
  · refine ⟨s, rfl, fun h => absurd h hgated, fun _ _ => rfl, ?_⟩
    simp only [State.placeForFetch, if_neg hgated]

/-- A read is raw where the gate does not close it (R34). -/
theorem memRead_eq_store_of_open (s : State) {addr : Word}
    (h : addr = Config.specDefault.portAData → s.store Config.specDefault.portADdr = 0x00#8) :
    memRead Config.specDefault s addr = s.store addr := by
  by_cases hport : addr = Config.specDefault.portAData
  · rw [memRead_specDefault, if_pos hport, if_pos (h hport)]
  · exact memRead_eq_store s hport

/-- Settles O48: the two raw bytes stand at two addresses, and the gate is open if one of them is the port-A data register, since
the direction register is neither. -/
theorem placedInstructionIsFetched : Obligations.PlacedInstructionIsFetched := by
  intro s opcode operand
  obtain ⟨u, hu, hopen, hframe, hplaced⟩ := placeForFetch_eq Config.specDefault s opcode operand
  have hsep : s.pc ≠ s.pc + 1#16 := by bv_omega
  have hpc : u.pc = s.pc := by rw [hu]
  have hfirst : ((u.setStore s.pc opcode).setStore (s.pc + 1#16) operand).store s.pc = opcode := by
    rw [store_setStore_other _ _ hsep, store_setStore_same]
  have hgate (h : s.pc = Config.specDefault.portAData ∨ s.pc + 1#16 = Config.specDefault.portAData) :
      ((u.setStore s.pc opcode).setStore (s.pc + 1#16) operand).store Config.specDefault.portADdr = 0x00#8 := by
    have hddr : 0x0003#16 ≠ s.pc ∧ 0x0003#16 ≠ s.pc + 1#16 := by
      change s.pc = 0x0000#16 ∨ s.pc + 1#16 = 0x0000#16 at h
      constructor <;> rcases h with h | h <;> bv_omega
    exact (store_setStore_other _ _ hddr.2).trans ((store_setStore_other _ _ hddr.1).trans (hopen h))
  refine ⟨_, hplaced.symm, ?opcode, ?operand, ?registers, fun addr hne hne' hddr => ?frame⟩
  case opcode =>
    rw [setStore_pc, setStore_pc, hpc, memRead_eq_store_of_open _ fun h => hgate (.inl h), hfirst]
  case operand =>
    rw [setStore_pc, setStore_pc, hpc, memRead_eq_store_of_open _ fun h => hgate (.inr h), store_setStore_same]
  case registers => rw [hu]; rfl
  case frame => rw [store_setStore_other _ _ hne', store_setStore_other _ _ hne, hframe addr hddr]

/-- The read of the masked port yields the policy's byte (R34). -/
theorem memRead_masked {c : Config} {s : State} (h : s.store c.portADdr ≠ 0x00#8) :
    memRead c s c.portAData = maskedByte c s.draws := by
  rw [memRead, if_pos rfl, if_neg h]

/-- A read away from the port-A data register leaves the state. -/
theorem afterRead_of_ne {c : Config} {s : State} {addr : Word} (h : addr ≠ c.portAData) : afterRead c s addr = s := by
  simp [afterRead, drawsFreeByte, h]

/-- Under `any` the read of the masked port moves the count of draws on (U3). -/
theorem afterRead_masked_any {c : Config} {s : State} (hany : c.maskedRead = .any) (h : s.store c.portADdr ≠ 0x00#8) :
    afterRead c s c.portAData = { s with draws := s.draws + 1 } := by
  simp [afterRead, drawsFreeByte, hany, h]

theorem maskedByte_any {c : Config} (hany : c.maskedRead = .any) (draw : Nat) : maskedByte c draw = Config.freeByte draw := by
  simp [maskedByte, hany]

/-- At the spec's setting a completed step draws no free byte. -/
theorem step_draws {s t : State} (h : step s = .next t) : t.draws = s.draws := by
  rcases step_next_cases h with ⟨-, _, rfl⟩ | ⟨-, _, rfl⟩ | ⟨-, _, rfl⟩ | ⟨-, rfl⟩ | ⟨-, rfl⟩ | ⟨-, rfl⟩
  · rw [aluAdd_draws]
  · rw [aluAnd_draws]
  · rw [loadAcc_draws]
  · rw [storeAcc_draws]
  · rw [branch_draws]
  · unfold branchIfZero
    split <;> rfl

/-- Settles O51: the gate and the policy decide the byte, and only a masked read under `any` moves the count. -/
theorem maskedReadFollowsThePolicy : Obligations.MaskedReadFollowsThePolicy := by
  refine ⟨fun c s =>
      ⟨fun hclosed => ⟨fun b hb => ?fixed, fun hany => ?any⟩, fun hopen => ?gateOpen, fun addr => afterRead_of_ne⟩,
    fun s => ⟨fun t => step_draws, fun r h => ?failed⟩⟩
  case fixed =>
    refine ⟨by rw [memRead_masked hclosed, maskedByte, hb], afterRead_of_ne_any ?_ _ _⟩
    rw [hb]
    simp
  case any =>
    have hafter := afterRead_masked_any hany hclosed
    refine ⟨by rw [memRead_masked hclosed, maskedByte_any hany], hafter, ?_⟩
    rw [hafter, memRead_masked (s := { s with draws := s.draws + 1 }) hclosed, maskedByte_any hany]
  case gateOpen => exact ⟨by rw [memRead, if_pos rfl, if_pos hopen], by simp [afterRead, drawsFreeByte, hopen]⟩
  case failed => rw [(step_fault_eq h).2]

/-- A fetch away from the port-A data register moves the program counter alone (R61). -/
theorem fetch8_of_ne {c : Config} {s : State} (h : s.pc ≠ c.portAData) :
    fetch8 c s = (memRead c s s.pc, { s with pc := s.pc + 1#16 }) := by
  rw [fetch8, afterRead_of_ne h]

/-- The low nibble of LDA selects LDA in a legal choice (R70). -/
theorem cycleSelect_lda {c : Config} (hc : c.Legal) (mode : BitVec 4) (operand : Operand) (s : State) :
    cycleSelect c (opcodeM mode c.lnLda) operand s = (.ok, loadAcc c (operand.value c s) (operand.afterRead c s)) := by
  simp [cycleSelect, hc.add_ne_lda.symm, hc.and_ne_lda.symm]

/-- Settles O52: two plain fetches, then LDA's one data read, which the closed gate turns into a free draw. -/
theorem ldaOfAMaskedPortDrawsAFreeByte : Obligations.LdaOfAMaskedPortDrawsAFreeByte := by
  intro c s hc hany hclosed hpc hpc' hop hea
  have hfetch : fetch8 c (fetch8 c s).2 = (memRead c s (s.pc + 1#16), { s with pc := s.pc + 2#16 }) := by
    rw [fetch8_of_ne hpc, fetch8_of_ne (s := { s with pc := s.pc + 1#16 }) hpc', memRead_congr (t := s) c rfl rfl, BitVec.add_assoc]
    rfl
  have hvalue : (Operand.direct (memRead c s (s.pc + 1#16))).value c { s with pc := s.pc + 2#16 } = Config.freeByte s.draws := by
    rw [Operand.value, hea, memRead_masked (s := { s with pc := s.pc + 2#16 }) hclosed, maskedByte_any hany]
  have hafter : (Operand.direct (memRead c s (s.pc + 1#16))).afterRead c { s with pc := s.pc + 2#16 } =
      { s with pc := s.pc + 2#16, draws := s.draws + 1 } := by
    rw [Operand.afterRead, hea, afterRead_masked_any (s := { s with pc := s.pc + 2#16 }) hany hclosed]
  have hcycle := cycle_direct hop
  rw [hfetch, cycleSelect_lda hc, hvalue, hafter] at hcycle
  exact ⟨_, hcycle, rfl, logicFlags_setNZ hc _ _, sameFlags_setNZ hc _ rfl, loadAcc_pc .., loadAcc_draws ..,
    ⟨loadAcc_sp .., loadAcc_hx ..⟩, store_congr (loadAcc_mem ..)⟩

end Sys2Proof.Machine
end

section
/-! PROOF. The host's requests (spec/00_scope.md R8): reset, load, launch and reload, input bits and register writes
(spec/20_memory.md section 7, spec/70_reset_and_hazards.md sections 1 and 2, spec/10_state.md section 6). -/

namespace Sys2Proof.Machine

/-- Settles O1: the reset state is written out with zeros, and the reset request installs it. -/
theorem resetLeavesEverythingZero : Obligations.ResetLeavesEverythingZero := by
  refine ⟨by decide, fun c f => ?noFlag, fun _ => rfl, fun _ _ => rfl⟩
  case noFlag => simp [isFlag_eq, ccrFlag, State.reset]

/-- A load succeeds exactly when its bytes fit below 65536, or there are none (R113). -/
theorem loadBytes_fst (bytes : List Byte) (cursor : Nat) (s : State) :
    (loadBytes bytes cursor s).1 = decide (cursor + bytes.length ≤ 65536 ∨ bytes = []) := by
  induction bytes generalizing cursor s with
  | nil => simp [loadBytes]
  | cons b bytes ih =>
    unfold loadBytes
    split
    · rw [ih, decide_eq_decide]
      cases bytes with
      | nil =>
        simp only [List.length_cons, List.length_nil, reduceCtorEq, or_true, or_false, true_iff]
        omega
      | cons =>
        simp only [List.length_cons, reduceCtorEq, or_false]
        omega
    · rw [eq_comm, decide_eq_false_iff_not]
      simp only [List.length_cons, reduceCtorEq, or_false]
      omega

/-- A load leaves every byte outside the addresses it names. -/
theorem loadBytes_store_outside (bytes : List Byte) (cursor : Nat) (s : State) {addr : Word}
    (h : addr.toNat < cursor ∨ cursor + bytes.length ≤ addr.toNat) :
    (loadBytes bytes cursor s).2.store addr = s.store addr := by
  induction bytes generalizing cursor s with
  | nil => rfl
  | cons b bytes ih =>
    rw [List.length_cons] at h
    unfold loadBytes
    split
    · rename_i hfits
      have hne : addr ≠ BitVec.ofNat 16 cursor := by
        rintro rfl
        rw [BitVec.toNat_ofNat] at h
        omega
      rw [ih (cursor + 1) _ (by omega), store_setStore_other _ _ hne]
    · rfl

/-- A load stores each byte that fits at its address; the bytes after it lie at greater addresses. -/
theorem loadBytes_store_inside {bytes : List Byte} {cursor k : Nat} {b : Byte} (s : State) (hk : bytes[k]? = some b)
    (hfits : cursor + k < 65536) : (loadBytes bytes cursor s).2.store (BitVec.ofNat 16 (cursor + k)) = b := by
  induction bytes generalizing cursor k s with
  | nil => simp at hk
  | cons head bytes ih =>
    unfold loadBytes
    rw [if_pos (by omega)]
    cases k with
    | zero =>
      rw [List.getElem?_cons_zero, Option.some_inj] at hk
      subst hk
      rw [loadBytes_store_outside]
      · exact store_setStore_same ..
      · rw [BitVec.toNat_ofNat]
        omega
    | succ k =>
      rw [List.getElem?_cons_succ] at hk
      rw [show cursor + (k + 1) = cursor + 1 + k by omega] at hfits ⊢
      exact ih _ hk hfits

theorem loadRecords_singleton (r : Record) (s : State) : loadRecords [r] s = loadBytes r.data r.address.toNat s := by
  unfold loadRecords
  split <;> rename_i heq <;> rw [heq]
  rfl

/-- Settles O41: one record is one run of bytes from its address. -/
theorem loadWritesTheRecord : Obligations.LoadWritesTheRecord := by
  intro r s
  rw [loadRecords_singleton]
  exact ⟨_, Prod.ext (loadBytes_fst ..) rfl, loadBytes_eq .., fun k b hk hfits => loadBytes_store_inside s hk hfits,
    fun addr hout => loadBytes_store_outside _ _ s hout⟩

/-- Loading neither reads nor moves the count of draws. -/
theorem loadBytes_draws (bytes : List Byte) (cursor : Nat) (s : State) (draws : Nat) :
    loadBytes bytes cursor { s with draws } =
      ((loadBytes bytes cursor s).1, { (loadBytes bytes cursor s).2 with draws }) := by
  induction bytes generalizing cursor s with
  | nil => rfl
  | cons b bytes ih =>
    unfold loadBytes
    split
    · exact ih _ (s.setStore (BitVec.ofNat 16 cursor) b)
    · rfl

/-- Nor does loading records. -/
theorem loadRecords_draws (records : List Record) (s : State) (draws : Nat) :
    loadRecords records { s with draws } = ((loadRecords records s).1, { (loadRecords records s).2 with draws }) := by
  induction records generalizing s with
  | nil => rfl
  | cons r records ih =>
    unfold loadRecords
    rw [loadBytes_draws]
    obtain ⟨fits, t⟩ := loadBytes r.data r.address.toNat s
    cases fits
    · rfl
    · exact ih t

/-- Everything a launch that succeeds has done: the image loaded over the reset state, the program counter at its entry (R133). -/
theorem launch_done {c : Config} {image : Image} {m m' : System} (h : launch c image m = (.done, m')) :
    (loadRecords image.records State.reset).1 = true ∧
      m' = ⟨{ (loadRecords image.records State.reset).2 with pc := image.entry, draws := m.core.draws }, some image⟩ := by
  have hload := loadRecords_draws image.records State.reset m.core.draws
  cases hloaded : loadRecords image.records State.reset with
  | mk fits t =>
    rw [hloaded] at hload
    cases fits
    · simp [launch, serve, serveLoad, hload] at h
    · have hdone : launch c image m = (.done, ⟨{ t with pc := image.entry, draws := m.core.draws }, some image⟩) := by
        simp [launch, serve, serveLoad, hload, State.writeRegister]
      rw [hdone] at h
      cases h
      exact ⟨rfl, rfl⟩

/-- Settles O42: loading touches the memory alone, so every other register is the reset one. -/
theorem launchStartsAtTheEntryAddress : Obligations.LaunchStartsAtTheEntryAddress := by
  intro c image m m' h
  obtain ⟨-, rfl⟩ := launch_done h
  rw [loadRecords_eq]
  exact ⟨rfl, rfl, rfl, rfl, rfl, rfl, rfl⟩

/-- Only a load changes what the host retains (R132). -/
theorem serve_retained (c : Config) (m : System) {r : Request} (h : ∀ image, r ≠ .load image) :
    (serve c m r).2.retained = m.retained := by
  cases r with
  | load image => exact absurd rfl (h image)
  | reload =>
    simp only [serve, serveReload]
    split
    · rfl
    · split <;> rfl
  | readWord addr =>
    simp only [serve]
    split <;> rfl
  | writeWord addr v =>
    simp only [serve]
    split <;> rfl
  | _ => rfl

theorem serveAll_retained (c : Config) (m : System) {rs : List Request} (h : ∀ r ∈ rs, ∀ image, r ≠ .load image) :
    (serveAll c m rs).retained = m.retained := by
  induction rs generalizing m with
  | nil => rfl
  | cons r rs ih =>
    rw [serveAll, ih _ fun q hq => h q (by simp [hq]), serve_retained c m (h r (by simp))]

theorem serveAll_append (c : Config) (m : System) (rs qs : List Request) :
    serveAll c m (rs ++ qs) = serveAll c (serveAll c m rs) qs := by
  induction rs generalizing m with
  | nil => rfl
  | cons r rs ih => exact ih _

/-- Unless the policy is `any`, an instruction cycle draws no free byte. -/
theorem cycle_draws {c : Config} (h : c.maskedRead ≠ .any) (s : State) : (cycle c s).2.draws = s.draws := by
  have hread (t : State) (addr : Word) : afterRead c t addr = t := afterRead_of_ne_any h t addr
  have hselect (op : Byte) (operand : Operand) (t : State) : (cycleSelect c op operand t).2.draws = t.draws := by
    have hoperand : operand.afterRead c t = t := by
      cases operand
      · rfl
      · exact hread ..
    unfold cycleSelect
    simp only [hoperand]
    split_ifs
    · rw [aluAdd_draws]
    · rw [aluAnd_draws]
    · rw [loadAcc_draws]
    · split
      · rfl
      · rw [storeAcc_draws]
    · rfl
  simp only [cycle, hread]
  split_ifs
  · rw [hselect]
  · rw [hselect]
  · rfl
  · rw [branch_draws]
  · unfold branchIfZero
    split <;> rfl
  · rfl

/-- Loading records keeps the count of draws. -/
theorem loadRecords_snd_draws (records : List Record) (s : State) : (loadRecords records s).2.draws = s.draws := by
  rw [loadRecords_eq]

/-- Unless the policy is `any`, no request draws a free byte. -/
theorem serve_draws {c : Config} (h : c.maskedRead ≠ .any) (m : System) (r : Request) :
    (serve c m r).2.core.draws = m.core.draws := by
  have hread (t : State) (addr : Word) : afterRead c t addr = t := afterRead_of_ne_any h t addr
  cases r with
  | step => exact cycle_draws h m.core
  | reload =>
    simp only [serve, serveReload]
    split
    · rfl
    · split <;> rename_i image _ t hload
      · exact (congrArg (State.draws ∘ Prod.snd) hload).symm.trans (loadRecords_snd_draws ..)
      · exact (congrArg (State.draws ∘ Prod.snd) hload).symm.trans (loadRecords_snd_draws ..)
  | load image => rw [serve, serveLoad_core, loadRecords_snd_draws]
  | writeRegister r v => cases r <;> rfl
  | readByte addr =>
    simp only [serve, afterHostReadByte, hread]
    split <;> rfl
  | writeByte v addr =>
    rcases hostWriteByte_cases c m.core addr v with hw | ⟨a, hw⟩ <;> simp [serve, hw]
  | readWord addr =>
    simp only [serve, afterHostReadWord, hread]
    split <;> rfl
  | writeWord addr v =>
    simp only [serve]
    split
    · rename_i t hw
      simp [hostWriteWord_eq_some hw]
    · rfl
  | setHardwareInputBit name value =>
    obtain ⟨v, hv⟩ := setHardwareInputBit_eq c name value m.core
    simp [serve, hv]
  | _ => rfl

theorem serveAll_draws {c : Config} (h : c.maskedRead ≠ .any) (m : System) (rs : List Request) :
    (serveAll c m rs).core.draws = m.core.draws := by
  induction rs generalizing m with
  | nil => rfl
  | cons r rs ih => rw [serveAll, ih, serve_draws h]

/-- A reset and a reload load the retained image over the reset state again (R132). -/
theorem serveAll_reset_reload {c : Config} {image : Image} {m : System} (hretained : m.retained = some image)
    (hfits : (loadRecords image.records State.reset).1 = true) :
    serveAll c m [.reset, .reload] =
      ⟨{ (loadRecords image.records State.reset).2 with pc := image.entry, draws := m.core.draws }, some image⟩ := by
  have hload := loadRecords_draws image.records State.reset m.core.draws
  rw [hfits] at hload
  simp [serveAll, serve, serveReload, hretained, hload]

/-- Settles O43: the image of the launch stays retained, and loading it over the reset state is what the launch did. -/
theorem resetAndReloadRestoreTheLaunch : Obligations.ResetAndReloadRestoreTheLaunch := by
  intro c image m m' rs hlaunch hrs
  obtain ⟨hfits, rfl⟩ := launch_done hlaunch
  rw [serveAll_append, serveAll_reset_reload (serveAll_retained c _ hrs) hfits]
  exact ⟨⟨_, rfl⟩, fun hpolicy => by rw [serveAll_draws hpolicy]⟩

/-- Four names, four positions: they are four values of one permutation (R51). -/
theorem inputPosition_injective (c : Config) : Function.Injective c.inputPosition := by
  intro a b h
  cases a <;> cases b <;> simp [Config.inputPosition] at h ⊢

/-- The port-A data byte after an input bit is written, bit by bit. -/
theorem setHardwareInputBit_getLsbD (c : Config) (name : InputBit) (value : Bool) (s : State) {k : Nat} (hk : k < 8) :
    ((setHardwareInputBit c name value s).store c.portAData).getLsbD k =
      if k = (c.inputPosition name).val then value else (s.store c.portAData).getLsbD k := by
  unfold setHardwareInputBit
  by_cases hbit : k = (c.inputPosition name).val
  · cases value <;> simp [← hbit, hk]
  · cases value <;> simp [hbit, hk]

/-- Settles O44: one raw write of the port-A data byte, which differs in the named bit alone. -/
theorem inputBitWritesOnePortBit : Obligations.InputBitWritesOnePortBit := by
  intro c s name value
  obtain ⟨v, hv⟩ := setHardwareInputBit_eq c name value s
  refine ⟨by rw [hv]; rfl, fun k hk => setHardwareInputBit_getLsbD c name value s hk, fun b hb => ?_,
    fun other h => inputPosition_injective c h⟩
  rw [hv, store_setStore_other _ _ hb]

/-- Settles O45: each register is stored at its width, and H and X are read back from the word they were joined into. -/
theorem hostRegisterWriteTruncates : Obligations.HostRegisterWriteTruncates := by
  intro s r v
  refine ⟨?_, store_congr (writeRegister_mem ..), rfl, fun file => ⟨rfl, store_congr (setRegisterFile_mem ..)⟩⟩
  cases r with
  | h => exact (congrArg BitVec.toNat (setH_h s _)).trans (BitVec.toNat_ofNat ..)
  | x => exact (congrArg BitVec.toNat (setX_x s _)).trans (BitVec.toNat_ofNat ..)
  | a | pc | sp | hx | ccr => exact BitVec.toNat_ofNat ..

end Sys2Proof.Machine
end

section
/-! PROOF. The record loader (spec/70_reset_and_hazards.md R136 to R141): what a record that validates says, and that one bad record
aborts the load. -/

namespace Sys2Proof.Machine

/-- The checksum of R137 brings the 8-bit sum of a record to 0xFF. -/
theorem sum_append_checksum (bytes : List Byte) : (bytes ++ [checksum bytes]).sum = 0xFF#8 := by
  have hfold : bytes.foldl (· + ·) 0x00#8 = bytes.sum := List.sum_eq_foldl.symm
  have hcomplement : ∀ v : Byte, v + ~~~v = 0xFF#8 := by decide
  rw [List.sum_append, List.sum_singleton, checksum, hfold, hcomplement]

/-- Everything a validated record says of its segment (R137): a type digit, then a count, the body and a checksum. -/
theorem validateRecord_eq_some {segment : List Char} {type : RecordType} {body : List Byte}
    (h : validateRecord segment = some (type, body)) :
    ∃ digit rest count, segment = digit :: rest ∧ recordType digit = some type ∧
      hexBytes rest = some (count :: (body ++ [checksum (count :: body)])) ∧ body.length + 1 = count.toNat := by
  cases segment with
  | nil => cases h
  | cons digit rest =>
    simp only [validateRecord] at h
    split at h
    case h_2 => cases h
    case h_1 foundType count bytes htype hbytes =>
      split at h
      case isFalse => cases h
      case isTrue hvalid =>
        obtain ⟨hcount, hlast⟩ := hvalid
        cases h
        have hsplit : bytes.dropLast ++ [checksum (count :: bytes.dropLast)] = bytes :=
          List.dropLast_append_getLast? _ hlast
        refine ⟨digit, rest, count, rfl, htype, by rw [hbytes, hsplit], ?_⟩
        rw [← hcount, ← congrArg List.length hsplit]
        simp

/-- Settles O49: the count and the checksum of a validated record are those of R137. -/
theorem validRecordHasTrueCountAndChecksum : Obligations.ValidRecordHasTrueCountAndChecksum := by
  intro segment type body h
  obtain ⟨digit, rest, count, hsegment, htype, hbytes, hcount⟩ := validateRecord_eq_some h
  exact ⟨digit, rest, count, checksum (count :: body), hsegment, htype, hbytes, hcount.symm,
    sum_append_checksum (count :: body)⟩

/-- One segment that does not validate fails the file (R137). -/
theorem validateAll_eq_none {segments : List (List Char)} {segment : List Char} (hmem : segment ∈ segments)
    (hbad : validateRecord segment = none) : validateAll segments = none := by
  induction segments with
  | nil => cases hmem
  | cons first rest ih =>
    unfold validateAll
    rcases List.mem_cons.mp hmem with rfl | hmem
    · rw [hbad]
    · rw [ih hmem]
      cases validateRecord first <;> rfl

/-- Settles O50: the file fails as a whole, and an empty payload list is no image. -/
theorem oneBadRecordAbortsTheLoad : Obligations.OneBadRecordAbortsTheLoad := by
  intro c text m segment hmem hbad
  have hparsed : parseRecords text = ⟨none, []⟩ := by rw [parseRecords, validateAll_eq_none hmem hbad]
  exact ⟨hparsed, by rw [launchText, imageOfText, hparsed]⟩

end Sys2Proof.Machine
end
